-- ==== Sys2Proof/Word.lean ====
section
/-! DEFINITION. The two unit widths of the CORE (00_scope.md R8): a byte is 8 bits, a word is 16 bits. -/

namespace Sys2Proof

/-- One byte of memory, an opcode, or a raw register index as fetched. -/
abbrev Byte := BitVec 8

/-- A register value, a literal or an address operand: an unsigned integer in `0 .. 0xFFFF`. -/
abbrev Word := BitVec 16

end Sys2Proof
end

