-- ==== Sys2Proof/Machine/Flags.lean ====
section
/-! DEFINITION. The ALU datapath (42_arithmetic.md R142): one 16-bit adder and one 16-bit equality comparator. The CORE
has no flags: the carry out of bit 15 is discarded and the comparator's output is the jump decision (10_state.md R31). -/

namespace Sys2Proof.Machine

/-- The adder: `(a + b) mod 2^16`, wraparound and no carry (42_arithmetic.md R140, R141). -/
def aluAdd (a b : Word) : Word := BitVec.ofNat 16 (a.toNat + b.toNat)

/-- The comparator: an exact 16-bit equality test (43_control.md R150). -/
def aluEqual (a b : Word) : Bool := a == b

/-- The `+1` and `+2` adjuster of `ip` and `sp`, modulo `2^16` (10_state.md R26, 42_arithmetic.md R142). -/
def stepUp (v : Word) (n : Nat) : Word := BitVec.ofNat 16 (v.toNat + n)

/-- The `-2` adjuster of `sp`, modulo `2^16` (44_stack.md R161, 42_arithmetic.md R142). -/
def stepDown (v : Word) : Word := v - 2

end Sys2Proof.Machine
end

