-- ==== Sys2Proof/Syntax.lean ====
section
/-! DEFINITION. The instruction set as syntax: the nine mnemonics of 00_scope.md R2 and, for each, its operands in
fetch order (30_encoding.md R85). -/

namespace Sys2Proof

/-- A `reg8` operand: the raw register index as fetched, any of `0 .. 255` (30_encoding.md R83). -/
abbrev RegIx := BitVec 8

/-- The nine mnemonics (00_scope.md R2). -/
inductive Mnemonic where
  | movLitReg
  | movRegReg
  | movRegMem
  | movMemReg
  | addRegReg
  | jmpNotEq
  | pshLit
  | pshReg
  | pop
  deriving DecidableEq, Repr

/-- An instruction: one constructor per row of the opcode map of 30_encoding.md R85, its operands in fetch order.
Every bit of every operand is part of its value (R88), so every term is an instruction. -/
inductive Instr where
  /-- MOV_LIT_REG: literal, destination (41_data_movement.md R120). -/
  | movLitReg (lit : Word) (dst : RegIx)
  /-- MOV_REG_REG: source, destination (41_data_movement.md R122). -/
  | movRegReg (src dst : RegIx)
  /-- MOV_REG_MEM: source, absolute store address (41_data_movement.md R124). -/
  | movRegMem (src : RegIx) (addr : Word)
  /-- MOV_MEM_REG: absolute load address, destination (41_data_movement.md R126). -/
  | movMemReg (addr : Word) (dst : RegIx)
  /-- ADD_REG_REG: first and second addend; the destination is always `acc` (42_arithmetic.md R140). -/
  | addRegReg (fst snd : RegIx)
  /-- JMP_NOT_EQ: comparand, absolute target (43_control.md R150). -/
  | jmpNotEq (lit target : Word)
  /-- PSH_LIT: the literal pushed (44_stack.md R160). -/
  | pshLit (lit : Word)
  /-- PSH_REG: the register pushed (44_stack.md R163). -/
  | pshReg (src : RegIx)
  /-- POP: destination (44_stack.md R166). -/
  | pop (dst : RegIx)
  deriving DecidableEq, Repr

/-- The mnemonic of an instruction. -/
def Instr.mnemonic : Instr → Mnemonic
  | .movLitReg _ _ => .movLitReg
  | .movRegReg _ _ => .movRegReg
  | .movRegMem _ _ => .movRegMem
  | .movMemReg _ _ => .movMemReg
  | .addRegReg _ _ => .addRegReg
  | .jmpNotEq _ _ => .jmpNotEq
  | .pshLit _ => .pshLit
  | .pshReg _ => .pshReg
  | .pop _ => .pop

end Sys2Proof
end

