-- ==== Sys2Proof/Config.lean ====
section
/-! DEFINITION. The implementation parameters of 00_scope.md R6, and the free values of 60_exceptions.md R182. -/

namespace Sys2Proof

/-- The parameter OPCODE (00_scope.md R6): the opcode byte of each mnemonic. -/
structure OpcodeMap where
  movLitReg : Byte
  movRegReg : Byte
  movRegMem : Byte
  movMemReg : Byte
  addRegReg : Byte
  jmpNotEq : Byte
  pshLit : Byte
  pshReg : Byte
  pop : Byte
  deriving DecidableEq, Repr

/-- `OPCODE(m)`. -/
def OpcodeMap.code (m : OpcodeMap) : Mnemonic → Byte
  | .movLitReg => m.movLitReg
  | .movRegReg => m.movRegReg
  | .movRegMem => m.movRegMem
  | .movMemReg => m.movMemReg
  | .addRegReg => m.addRegReg
  | .jmpNotEq => m.jmpNotEq
  | .pshLit => m.pshLit
  | .pshReg => m.pshReg
  | .pop => m.pop

/-- The nine opcode bytes in the order of 30_encoding.md R85. -/
def OpcodeMap.codes (m : OpcodeMap) : List Byte :=
  [m.movLitReg, m.movRegReg, m.movRegMem, m.movMemReg, m.addRegReg, m.jmpNotEq, m.pshLit, m.pshReg, m.pop]

/-- The parameter UNKNOWN_OPCODE_POLICY (00_scope.md R6): what an unassigned opcode byte does (40_cycle.md R106). -/
inductive UnknownPolicy where
  /-- The source's baseline: a one-byte no-op. -/
  | nop
  /-- The hardened variant: `InvalidOpcode`. -/
  | fault
  deriving DecidableEq, Repr

/-- The configuration `(L, OPCODE, UNKNOWN_OPCODE_POLICY)` of an instance (00_scope.md R12). It is fixed for the life
of the instance. -/
structure Config where
  /-- MEM_LEN, written `L`: the length of the memory buffer in bytes. -/
  memLen : Nat
  /-- OPCODE. -/
  opcodes : OpcodeMap
  /-- UNKNOWN_OPCODE_POLICY. -/
  unknownPolicy : UnknownPolicy
  deriving DecidableEq, Repr

/-- A free value: what `ip` holds after a fault (60_exceptions.md R182, 93_implementation_defined.md I6). Nothing
constrains it (assumption log 7). -/
opaque Config.freeIp : Nat → Word

/-- A free value: what byte `L - 1` holds after a 16-bit store at `L - 1` faulted (60_exceptions.md R182,
93_implementation_defined.md I7). Nothing constrains it (assumption log 8). -/
opaque Config.freeByte : Nat → Byte

end Sys2Proof
end

