-- ==== Sys2Proof/WellFormed.lean ====
section
/-! DEFINITION. What the spec asks of a configuration (00_scope.md R6), and which instructions name only registers of
the bank. An instruction has no check of its own: every bit of every operand field is part of its value (30_encoding.md
R88), and a raw index outside the bank decodes normally and faults only when it is used (R83). -/

namespace Sys2Proof

/-- OPCODE is injective: "a distinct 8-bit value" for each mnemonic (00_scope.md R6). -/
abbrev OpcodeMap.wf (m : OpcodeMap) : Prop := m.codes.Nodup

/-- The constraints of 00_scope.md R6 on the parameters: `2 <= L <= 0x10000`, OPCODE injective. -/
abbrev Config.wf (c : Config) : Prop := 2 ≤ c.memLen ∧ c.memLen ≤ 0x10000 ∧ c.opcodes.wf

/-- The raw index selects a register of the bank: it is in `0 .. 11` (10_state.md R22). -/
def RegIx.inBank (i : RegIx) : Bool := i.toNat < 12

/-- Every register operand of the instruction is in the bank: the instruction raises no fault of the register bank
(10_state.md R25). -/
def Instr.regsInBank : Instr → Bool
  | .movLitReg _ d => RegIx.inBank d
  | .movRegReg s d => RegIx.inBank s && RegIx.inBank d
  | .movRegMem s _ => RegIx.inBank s
  | .movMemReg _ d => RegIx.inBank d
  | .addRegReg a b => RegIx.inBank a && RegIx.inBank b
  | .jmpNotEq _ _ => true
  | .pshLit _ => true
  | .pshReg r => RegIx.inBank r
  | .pop d => RegIx.inBank d

end Sys2Proof
end

