-- ==== Sys2Proof/Decode.lean ====
section
/-! DEFINITION. Decoding and encoding (30_encoding.md): the byte order of 16-bit fields, the opcode lookup, the operand
fields of each mnemonic in fetch order, the decoder over any bytes, the encoder, and the reference opcode assignment of
R85. The operand sequence is written once, over any source of bytes, and read here from a list and in
Machine/Fetch.lean from memory. -/

namespace Sys2Proof

/-- The 16-bit value of two consecutive bytes, the one at the lower address more significant (20_memory.md R52). -/
def be16 (hi lo : Byte) : Word := hi ++ lo

/-- `v[15:8]`, the byte stored at the lower address (20_memory.md R52). -/
def hiByte (v : Word) : Byte := v.extractLsb' 8 8

/-- `v[7:0]`, the byte stored at the higher address (20_memory.md R52). -/
def loByte (v : Word) : Byte := v.extractLsb' 0 8

/-- The mnemonic an opcode byte selects, the whole byte compared with each `OPCODE(m)` in the order of 40_cycle.md
R105; none for an unassigned byte (30_encoding.md R86, R87). -/
def lookupOpcode (m : OpcodeMap) (op : Byte) : Option Mnemonic :=
  if op = m.movLitReg then some .movLitReg
  else if op = m.movRegReg then some .movRegReg
  else if op = m.movRegMem then some .movRegMem
  else if op = m.movMemReg then some .movMemReg
  else if op = m.addRegReg then some .addRegReg
  else if op = m.jmpNotEq then some .jmpNotEq
  else if op = m.pshLit then some .pshLit
  else if op = m.pshReg then some .pshReg
  else if op = m.pop then some .pop
  else none

/-- The length in bytes of an instruction of this mnemonic, its opcode byte included (30_encoding.md R84, R85). -/
def instrLength : Mnemonic → Nat
  | .movLitReg => 4
  | .movRegReg => 3
  | .movRegMem => 4
  | .movMemReg => 4
  | .addRegReg => 3
  | .jmpNotEq => 5
  | .pshLit => 3
  | .pshReg => 2
  | .pop => 2

/-- The operand fields of a mnemonic, consumed in order by the two operand primitives (30_encoding.md R80, R85), from
any source `σ` of bytes whose reads may stop with an `ε`: `f8` consumes a `reg8`, `f16` a `lit16` or an `addr16`. -/
def readOperands {σ ε : Type} (f8 : σ → Except ε (Byte × σ)) (f16 : σ → Except ε (Word × σ)) :
    Mnemonic → σ → Except ε (Instr × σ)
  | .movLitReg, s => do
    let (lit, s) ← f16 s
    let (dst, s) ← f8 s
    return (.movLitReg lit dst, s)
  | .movRegReg, s => do
    let (src, s) ← f8 s
    let (dst, s) ← f8 s
    return (.movRegReg src dst, s)
  | .movRegMem, s => do
    let (src, s) ← f8 s
    let (addr, s) ← f16 s
    return (.movRegMem src addr, s)
  | .movMemReg, s => do
    let (addr, s) ← f16 s
    let (dst, s) ← f8 s
    return (.movMemReg addr dst, s)
  | .addRegReg, s => do
    let (fst, s) ← f8 s
    let (snd, s) ← f8 s
    return (.addRegReg fst snd, s)
  | .jmpNotEq, s => do
    let (lit, s) ← f16 s
    let (target, s) ← f16 s
    return (.jmpNotEq lit target, s)
  | .pshLit, s => do
    let (lit, s) ← f16 s
    return (.pshLit lit, s)
  | .pshReg, s => do
    let (src, s) ← f8 s
    return (.pshReg src, s)
  | .pop, s => do
    let (dst, s) ← f8 s
    return (.pop dst, s)

/-- Why bytes are not an instruction. -/
inductive DecodeError where
  /-- There is no opcode byte. -/
  | noByte
  /-- The opcode byte matches no mnemonic (30_encoding.md R87). -/
  | unassigned (op : Byte)
  /-- The opcode byte is assigned, and the bytes end before its last operand byte. -/
  | truncated (mnemonic : Mnemonic)
  deriving DecidableEq, Repr

/-- Consume one byte of a list. -/
def takeByte {ε : Type} (short : ε) : List Byte → Except ε (Byte × List Byte)
  | b :: rest => .ok (b, rest)
  | [] => .error short

/-- Consume two bytes of a list as a big-endian word (30_encoding.md R82). -/
def takeWord {ε : Type} (short : ε) : List Byte → Except ε (Word × List Byte)
  | hi :: lo :: rest => .ok (be16 hi lo, rest)
  | _ => .error short

/-- The decoder: an opcode byte and its operand fields, and the bytes after the instruction; any other bytes are
rejected by name (30_encoding.md R80, R86). -/
def decode (m : OpcodeMap) : List Byte → Except DecodeError (Instr × List Byte)
  | [] => .error .noByte
  | op :: rest =>
    match lookupOpcode m op with
    | none => .error (.unassigned op)
    | some mn => readOperands (takeByte (.truncated mn)) (takeWord (.truncated mn)) mn rest

/-- The bytes of an instruction, in fetch order (30_encoding.md R84). -/
def encode (m : OpcodeMap) : Instr → List Byte
  | .movLitReg lit dst => [m.movLitReg, hiByte lit, loByte lit, dst]
  | .movRegReg src dst => [m.movRegReg, src, dst]
  | .movRegMem src addr => [m.movRegMem, src, hiByte addr, loByte addr]
  | .movMemReg addr dst => [m.movMemReg, hiByte addr, loByte addr, dst]
  | .addRegReg fst snd => [m.addRegReg, fst, snd]
  | .jmpNotEq lit target => [m.jmpNotEq, hiByte lit, loByte lit, hiByte target, loByte target]
  | .pshLit lit => [m.pshLit, hiByte lit, loByte lit]
  | .pshReg src => [m.pshReg, src]
  | .pop dst => [m.pop, dst]

/-- The reference opcode assignment of 30_encoding.md R85. PRESUMED, unsafe: the spec recalls it from outside its source
(92_eei_decisions.md D3; assumption log 3). -/
def referenceOpcodes : OpcodeMap where
  movLitReg := 0x10
  movRegReg := 0x11
  movRegMem := 0x12
  movMemReg := 0x13
  addRegReg := 0x14
  jmpNotEq := 0x15
  pshLit := 0x17
  pshReg := 0x18
  pop := 0x1A

/-- The bytes of the number `w` in the opcode table's numbering, most significant first: an instruction of `n` bytes is
the bit string `B0 ++ B1 ++ ... ++ B(n-1)`, so `B0` is bits `[8n-1 : 8n-8]` (30_encoding.md R84; assumption log 14). -/
def tableBytes : Nat → Nat → List Byte
  | 0, _ => []
  | n + 1, w => BitVec.ofNat 8 (w / 256 ^ n) :: tableBytes n w

/-- The five bytes, the longest length of 30_encoding.md R84, of an instruction of the opcode table given by its first
`nbits` bits: the bytes after them are zero. -/
def tableInstrBytes (nbits w : Nat) : List Byte :=
  (tableBytes ((nbits + 7) / 8) w ++ List.replicate 5 0).take 5

/-- The instruction the decoder reads, under the reference assignment, from an instruction whose bits are `w` in the
opcode table's numbering. -/
def decodeTableWord (nbits w : Nat) : Option Instr :=
  match decode referenceOpcodes (tableInstrBytes nbits w) with
  | .ok (i, _) => some i
  | .error _ => none

end Sys2Proof
end

