-- ==== Sys2Proof/Machine/Reference.lean ====
section
/-! DEFINITION. The configuration State.reset takes. The spec leaves all of it to parameters (00_scope.md R6); every
statement about the machine is over all configurations. -/

namespace Sys2Proof

/-- The configuration of State.reset: the largest memory of 00_scope.md R6 (DESIGN CHOICE, unsafe: assumption log 2),
the reference opcodes (PRESUMED, unsafe: assumption log 3) and the source's baseline policy (DESIGN CHOICE, unsafe:
assumption log 4). -/
def Config.reference : Config where
  memLen := 0x10000
  opcodes := referenceOpcodes
  unknownPolicy := .nop

end Sys2Proof
end

