-- ==== Sys2Proof/Machine/State.lean ====
section
/-! DEFINITION. The state of the CORE as plain data: the register bank, memory, the status and the configuration, the
fault record, and the state right after construction. -/

namespace Sys2Proof.Machine

/-- The twelve registers, in the order of 10_state.md R20. -/
inductive RegName where
  | ip | acc | r1 | r2 | r3 | r4 | r5 | r6 | r7 | r8 | sp | fp
  deriving DecidableEq, Repr

/-- The register bank: twelve 16-bit unsigned registers (10_state.md R20). The bank is its own address space, reached
16 bits at a time, so that twelve words are an exact model of its 24 bytes (R23). -/
structure Regs where
  ip : Word
  acc : Word
  r1 : Word
  r2 : Word
  r3 : Word
  r4 : Word
  r5 : Word
  r6 : Word
  r7 : Word
  r8 : Word
  sp : Word
  fp : Word
  deriving DecidableEq, Repr

/-- What a byte of memory that is not listed reads as. DESIGN CHOICE, unsafe: the spec leaves the initial contents to
the parameter INIT_MEM (70_reset_and_hazards.md R212); any contents can be listed (assumption log 5). -/
def unlistedByte : Byte := 0

/-- The contents of memory (20_memory.md R50): the bytes that are not `unlistedByte`, by address. -/
abbrev Memory := List Host.Cell

/-- The canonical form: addresses strictly rising, and no entry equal to what an unlisted address reads as. -/
abbrev Memory.wf (m : Memory) : Prop :=
  m.Pairwise (fun c d => c.1 < d.1) ∧ ∀ c ∈ m, c.2 ≠ unlistedByte

/-- Every listed address is a byte of a buffer of `len` bytes (20_memory.md R50). -/
abbrev Memory.within (len : Nat) (m : Memory) : Prop := ∀ c ∈ m, c.1 < len

/-- The space of an out-of-bounds access (60_exceptions.md R180). -/
inductive Space where
  | memory
  | registerBank
  deriving DecidableEq, Repr

/-- The record of a fatal fault (60_exceptions.md R180): raised during a step, kept in the status, and reported by every
later step. A fault ends the step in a next state whose status holds the record (R181), so no step answers
`Host.Outcome.fault` (assumption log 6). `pc` is the address of the opcode byte of the instruction in progress. -/
inductive Fault where
  /-- `OutOfBounds`, code 1: raised by the memory port (a fetch, a load or a store outside `0 .. L-1`; 20_memory.md R55)
  and by the register bank (a raw index outside `0 .. 11`; 10_state.md R25). `offset` is the memory address, or twice
  the raw index. Safe: the instance stops where the spec stops it. -/
  | outOfBounds (space : Space) (offset width : Nat) (pc : Word)
  /-- `InvalidOpcode`, code 2: raised by the dispatch on an unassigned opcode byte under the policy `fault`
  (40_cycle.md R106). Safe: the instance stops where the spec stops it. -/
  | invalidOpcode (opcode : Byte) (pc : Word)
  deriving DecidableEq, Repr

/-- Why a call has no transition. -/
inductive Refusal where
  /-- Raised by `exec` for an instruction with no meaning yet. No arm raises it: every instruction has its meaning. Safe. -/
  | notModelled (mnemonic : String)
  /-- Raised by `step` on a `Faulted` instance: the call is refused, reports the stored fault and changes nothing
  (10_state.md R39). Safe: the spec gives it no transition. -/
  | instanceFaulted (stored : Fault)
  deriving DecidableEq, Repr

/-- The instance status (10_state.md R30). -/
inductive Status where
  | running
  | faulted (f : Fault)
  deriving DecidableEq, Repr

/-- The state `(x, mem, status)` of 00_scope.md R12, with the configuration it runs under. -/
structure State where
  /-- The parameters, which no step writes (assumption log 1). -/
  cfg : Config
  /-- `x`, the register bank. -/
  regs : Regs
  /-- `mem`, the memory buffer of `cfg.memLen` bytes. -/
  mem : Memory
  /-- `status`. -/
  status : Status
  /-- The model's own field: how many times free values have been drawn (assumption log 7). -/
  draws : Nat
  deriving DecidableEq, Repr

/-- Construction over a memory buffer, which is the reset (70_reset_and_hazards.md R210): registers zeroed, then `sp`
and `fp` set to `L - 2`; memory is read for its length only and not written (R212). -/
def State.construct (cfg : Config) (initMem : Memory) : State where
  cfg := cfg
  regs :=
    { ip := 0, acc := 0, r1 := 0, r2 := 0, r3 := 0, r4 := 0, r5 := 0, r6 := 0, r7 := 0, r8 := 0
      sp := BitVec.ofNat 16 (cfg.memLen - 2), fp := BitVec.ofNat 16 (cfg.memLen - 2) }
  mem := initMem
  status := .running
  draws := 0

/-- The machine right after reset: construction under the reference configuration, with nothing listed in memory. -/
def State.reset : State := State.construct Config.reference []

end Sys2Proof.Machine
end

