-- ==== Sys2Proof/Machine/Ops.lean ====
section
/-! DEFINITION. The named operations over memory and registers: the bytes of memory, the memory port, the register bank
by name, the two fetch primitives, and the end of a step in a fault. -/

namespace Sys2Proof.Machine

/-! ### Memory -/

/-- The byte at an address: a read returns the byte last written there (20_memory.md R58). -/
def memGet : Memory → Nat → Byte
  | [], _ => unlistedByte
  | (b, w) :: m, a => if a = b then w else memGet m a

/-- Write one byte, keeping the canonical form; no other byte changes (20_memory.md R58). -/
def memSet : Memory → Nat → Byte → Memory
  | [], a, v => if v = unlistedByte then [] else [(a, v)]
  | (b, w) :: m, a, v =>
    if a < b then (if v = unlistedByte then (b, w) :: m else (a, v) :: (b, w) :: m)
    else if a = b then (if v = unlistedByte then m else (a, v) :: m)
    else (b, w) :: memSet m a v

/-- The big-endian word at two consecutive addresses (20_memory.md R52). -/
def memGet16 (m : Memory) (a : Nat) : Word := be16 (memGet m a) (memGet m (a + 1))

/-- Write a word at two consecutive addresses, `v[15:8]` at the lower (20_memory.md R52). -/
def memSet16 (m : Memory) (a : Nat) (v : Word) : Memory := memSet (memSet m a (hiByte v)) (a + 1) (loByte v)

/-- The state with its memory replaced. -/
def State.setMem (s : State) (m : Memory) : State := { s with mem := m }

/-! ### The memory port (20_memory.md R51) -/

/-- Whether a memory access reads or writes. -/
inductive MemUse where
  | read
  | write
  deriving DecidableEq, Repr

/-- What ends a step before its last statement: the first access that fails, or an unassigned opcode under the policy
`fault` (60_exceptions.md R181, R187). -/
inductive Abort where
  /-- A memory access of `width` bytes at `addr` that is not inside `0 .. L-1` (20_memory.md R55). -/
  | memory (use : MemUse) (addr width : Nat)
  /-- An access to the register bank at a raw index outside `0 .. 11` (10_state.md R25). -/
  | register (index : RegIx)
  /-- An unassigned opcode byte (40_cycle.md R106). -/
  | opcode (op : Byte)
  deriving DecidableEq, Repr

/-- `byteLength`. -/
abbrev byteLength (s : State) : Nat := s.cfg.memLen

/-- `MemRead(a, 1)`: in range iff `a <= L - 1` (20_memory.md R53). -/
def memRead8 (s : State) (a : Nat) : Except Abort Byte :=
  if a + 1 ≤ byteLength s then .ok (memGet s.mem a) else .error (.memory .read a 1)

/-- `MemRead(a, 2)`: in range iff `a <= L - 2`; `a + 1` is exact and never wraps (20_memory.md R54). -/
def memRead16 (s : State) (a : Nat) : Except Abort Word :=
  if a + 2 ≤ byteLength s then .ok (memGet16 s.mem a) else .error (.memory .read a 2)

/-- `MemWrite(a, 1, v)`: on the port, and used by no instruction (20_memory.md R51). -/
def memWrite8 (s : State) (a : Nat) (v : Byte) : Except Abort State :=
  if a + 1 ≤ byteLength s then .ok (s.setMem (memSet s.mem a v)) else .error (.memory .write a 1)

/-- `MemWrite(a, 2, v)` (20_memory.md R52, R54). -/
def memWrite16 (s : State) (a : Nat) (v : Word) : Except Abort State :=
  if a + 2 ≤ byteLength s then .ok (s.setMem (memSet16 s.mem a v)) else .error (.memory .write a 2)

/-! ### The register bank by name -/

/-- The register list: a register's raw index is its position in it (10_state.md R22). -/
def RegName.all : List RegName := [.ip, .acc, .r1, .r2, .r3, .r4, .r5, .r6, .r7, .r8, .sp, .fp]

/-- The value of a register. -/
def Regs.get (x : Regs) : RegName → Word
  | .ip => x.ip
  | .acc => x.acc
  | .r1 => x.r1
  | .r2 => x.r2
  | .r3 => x.r3
  | .r4 => x.r4
  | .r5 => x.r5
  | .r6 => x.r6
  | .r7 => x.r7
  | .r8 => x.r8
  | .sp => x.sp
  | .fp => x.fp

/-- The bank with one register written. No register is read-only or hard-wired (10_state.md R24). -/
def Regs.set (x : Regs) (r : RegName) (v : Word) : Regs :=
  match r with
  | .ip => { x with ip := v }
  | .acc => { x with acc := v }
  | .r1 => { x with r1 := v }
  | .r2 => { x with r2 := v }
  | .r3 => { x with r3 := v }
  | .r4 => { x with r4 := v }
  | .r5 => { x with r5 := v }
  | .r6 => { x with r6 := v }
  | .r7 => { x with r7 := v }
  | .r8 => { x with r8 := v }
  | .sp => { x with sp := v }
  | .fp => { x with fp := v }

/-- A register of the state. -/
def State.reg (s : State) (r : RegName) : Word := s.regs.get r

/-- The state with one register written. -/
def State.setReg (s : State) (r : RegName) (v : Word) : State := { s with regs := s.regs.set r v }

/-- `ip` advanced by `n` bytes, modulo `2^16` (40_cycle.md R104). -/
def advanceIp (n : Nat) (s : State) : State := s.setReg .ip (stepUp (s.reg .ip) n)

/-! ### The fetch primitives -/

/-- `fetch8()`: the byte at `ip`, and `ip` advanced by 1 (40_cycle.md R100). -/
def fetch8 (s : State) : Except Abort (Byte × State) := do
  let b ← memRead8 s (s.reg .ip).toNat
  return (b, advanceIp 1 s)

/-- `fetch16()`: the word at `ip`, and `ip` advanced by 2 (40_cycle.md R101). -/
def fetch16 (s : State) : Except Abort (Word × State) := do
  let v ← memRead16 s (s.reg .ip).toNat
  return (v, advanceIp 2 s)

/-! ### The end of a step in a fault -/

/-- The fault record of 60_exceptions.md R180, `pc` the address of the opcode byte of the instruction in progress. -/
def faultRecord (pc : Word) : Abort → Fault
  | .memory _ a n => .outOfBounds .memory a n pc
  | .register i => .outOfBounds .registerBank (2 * i.toNat) 2 pc
  | .opcode op => .invalidOpcode op pc

/-- Memory after a fault: unchanged, but for byte `L - 1` when a 16-bit store at `L - 1` raised it: that byte holds a
free value (60_exceptions.md R182; assumption log 8). -/
def memAfterFault (e : Abort) (s : State) : Memory :=
  match e with
  | .memory .write a 2 => if a + 1 = byteLength s then memSet s.mem a (Config.freeByte s.draws) else s.mem
  | _ => s.mem

/-- A fault raised during the step that starts in `s` ends the step at once (60_exceptions.md R181): the status becomes
`Faulted`, `ip` holds a free value, and every other register keeps its value from before the step (R182; assumption
logs 6, 7). There is no trap entry: control goes nowhere (R189). -/
def takeFault (e : Abort) (s : State) : State :=
  { cfg := s.cfg
    regs := s.regs.set .ip (Config.freeIp s.draws)
    mem := memAfterFault e s
    status := .faulted (faultRecord (s.reg .ip) e)
    draws := s.draws + 1 }

/-- The outcome of an instruction that starts in `s`: the state its statements reach, or the state after the fault
(40_cycle.md R102: on return the status is `Running` or `Faulted`). -/
def complete (s : State) : Except Abort State → Host.Outcome State Fault Refusal
  | .ok t => .next t
  | .error e => .next (takeFault e s)

end Sys2Proof.Machine
end

