-- ==== Sys2Proof/Machine/Operands.lean ====
section
/-! DEFINITION. The operand forms: a register by raw index (10_state.md R24, R25), memory at an absolute address
(41_data_movement.md R128), the push slot and the pop slot (44_stack.md R171). There is no other addressing. -/

namespace Sys2Proof.Machine

/-- The register a raw index selects; none outside `0 .. 11` (10_state.md R22). -/
def regOf (i : RegIx) : Option RegName := RegName.all[i.toNat]?

/-- `x[i]` (00_scope.md R9). -/
def readReg (i : RegIx) (s : State) : Except Abort Word :=
  match regOf i with
  | some r => .ok (s.reg r)
  | none => .error (.register i)

/-- `x[i] <- v` (00_scope.md R9). -/
def writeReg (i : RegIx) (v : Word) (s : State) : Except Abort State :=
  match regOf i with
  | some r => .ok (s.setReg r v)
  | none => .error (.register i)

/-- `memory[addr]`, 16 bits (41_data_movement.md R126). -/
def loadWord (addr : Word) (s : State) : Except Abort Word := memRead16 s addr.toNat

/-- `memory[addr] <- v`, 16 bits (41_data_movement.md R124). -/
def storeWord (addr v : Word) (s : State) : Except Abort State := memWrite16 s addr.toNat v

/-- A push: store at the slot `sp` addresses, then `sp <- (sp - 2) mod 2^16` (44_stack.md R160, R161). -/
def pushWord (v : Word) (s : State) : Except Abort State := do
  let t ← storeWord (s.reg .sp) v s
  return t.setReg .sp (stepDown (s.reg .sp))

/-- The pop address `(sp + 2) mod 2^16` (44_stack.md R168). -/
def popAddress (s : State) : Word := stepUp (s.reg .sp) 2

end Sys2Proof.Machine
end

