-- ==== Sys2Proof/Machine/Arithmetic.lean ====
section
/-! DEFINITION. The arithmetic instruction (42_arithmetic.md). -/

namespace Sys2Proof.Machine

/-- ADD_REG_REG: `acc <- (x[fst] + x[snd]) mod 2^16`, the first addend read first (42_arithmetic.md R140). -/
def execAddRegReg (fst snd : RegIx) (s : State) : Host.Outcome State Fault Refusal :=
  let t := advanceIp 3 s
  complete s do
    let va ← readReg fst t
    let vb ← readReg snd t
    return t.setReg .acc (aluAdd va vb)

end Sys2Proof.Machine
end

