-- ==== Sys2Proof/Machine/Control.lean ====
section
/-! DEFINITION. The control transfer instruction (43_control.md). -/

namespace Sys2Proof.Machine

/-- JMP_NOT_EQ: `ip <- target` if `lit` differs from `acc`; the target is not checked (43_control.md R150, R151). -/
def execJmpNotEq (lit target : Word) (s : State) : Host.Outcome State Fault Refusal :=
  let t := advanceIp 5 s
  complete s (.ok (if aluEqual lit (t.reg .acc) then t else t.setReg .ip target))

end Sys2Proof.Machine
end

