-- ==== Sys2Proof/Machine/DataMovement.lean ====
section
/-! DEFINITION. The data movement instructions (41_data_movement.md). Each meaning starts in the state in which `ip`
holds the address of the opcode byte; its effect sees `ip` past the whole instruction (40_cycle.md R103). -/

namespace Sys2Proof.Machine

/-- MOV_LIT_REG: `x[dst] <- lit` (41_data_movement.md R120). -/
def execMovLitReg (lit : Word) (dst : RegIx) (s : State) : Host.Outcome State Fault Refusal :=
  complete s (writeReg dst lit (advanceIp 4 s))

/-- MOV_REG_REG: `x[dst] <- x[src]`, the source read first (41_data_movement.md R122). -/
def execMovRegReg (src dst : RegIx) (s : State) : Host.Outcome State Fault Refusal :=
  let t := advanceIp 3 s
  complete s do
    let v ← readReg src t
    writeReg dst v t

/-- MOV_REG_MEM: `mem16[addr] <- x[src]`, the source read first (41_data_movement.md R124). -/
def execMovRegMem (src : RegIx) (addr : Word) (s : State) : Host.Outcome State Fault Refusal :=
  let t := advanceIp 4 s
  complete s do
    let v ← readReg src t
    storeWord addr v t

/-- MOV_MEM_REG: `x[dst] <- mem16[addr]`, the load first (41_data_movement.md R126). -/
def execMovMemReg (addr : Word) (dst : RegIx) (s : State) : Host.Outcome State Fault Refusal :=
  let t := advanceIp 4 s
  complete s do
    let v ← loadWord addr t
    writeReg dst v t

end Sys2Proof.Machine
end

