-- ==== Sys2Proof/Machine/Stack.lean ====
section
/-! DEFINITION. The stack instructions (44_stack.md). The stack is a region of memory addressed by `sp`, growing
downward, and nothing checks it but the memory bounds (R170). -/

namespace Sys2Proof.Machine

/-- PSH_LIT (44_stack.md R160). -/
def execPshLit (lit : Word) (s : State) : Host.Outcome State Fault Refusal :=
  complete s (pushWord lit (advanceIp 3 s))

/-- PSH_REG: the register is read before the store and before the decrement (44_stack.md R163, R164). -/
def execPshReg (src : RegIx) (s : State) : Host.Outcome State Fault Refusal :=
  let t := advanceIp 2 s
  complete s do
    let v ← readReg src t
    pushWord v t

/-- POP: the loaded word is written to the destination and then `sp` to the pop address, so that `POP sp` leaves the
pop address (44_stack.md R166, R167). -/
def execPop (dst : RegIx) (s : State) : Host.Outcome State Fault Refusal :=
  let t := advanceIp 2 s
  complete s do
    let v ← loadWord (popAddress t) t
    let u ← writeReg dst v t
    return u.setReg .sp (popAddress t)

end Sys2Proof.Machine
end

