-- ==== Sys2Proof/Machine/Dispatch.lean ====
section
/-! DEFINITION. `execute(op)`: exactly one meaning per instruction (40_cycle.md R105). -/

namespace Sys2Proof.Machine

def exec (i : Instr) (s : State) : Host.Outcome State Fault Refusal :=
  match i with
  | .movLitReg lit dst => Sys2Proof.Machine.execMovLitReg lit dst s
  | .movRegReg src dst => Sys2Proof.Machine.execMovRegReg src dst s
  | .movRegMem src addr => Sys2Proof.Machine.execMovRegMem src addr s
  | .movMemReg addr dst => Sys2Proof.Machine.execMovMemReg addr dst s
  | .addRegReg fst snd => Sys2Proof.Machine.execAddRegReg fst snd s
  | .jmpNotEq lit target => Sys2Proof.Machine.execJmpNotEq lit target s
  | .pshLit lit => Sys2Proof.Machine.execPshLit lit s
  | .pshReg src => Sys2Proof.Machine.execPshReg src s
  | .pop dst => Sys2Proof.Machine.execPop dst s

end Sys2Proof.Machine
end

