-- ==== Sys2Proof/Machine/Fetch.lean ====
section
/-! DEFINITION. The fetch of one instruction and the unassigned opcodes (40_cycle.md R102 to R106), and the placing of
bytes where the fetch reads them. -/

namespace Sys2Proof.Machine

/-- What the fetch finds at `ip`, with the state in which `ip` is past the bytes it consumed. -/
inductive Fetched where
  | instr (i : Instr) (s : State)
  | unassigned (op : Byte) (s : State)
  deriving DecidableEq, Repr

/-- The opcode by `fetch8()`, then every operand field of its mnemonic in order; nothing after an unassigned byte
(40_cycle.md R102, R103, R105, R106). -/
def fetchInstr (s : State) : Except Abort Fetched := do
  let (op, t) ← fetch8 s
  match lookupOpcode s.cfg.opcodes op with
  | none => return .unassigned op t
  | some mn =>
    let (i, u) ← readOperands fetch8 fetch16 mn t
    return .instr i u

/-- `UNASSIGNED(op)` in a step that starts in `s`: under `nop` the step ends with `ip` past the byte, under `fault` it
raises `InvalidOpcode` (40_cycle.md R106). -/
def execUnassigned (op : Byte) (s : State) : Host.Outcome State Fault Refusal :=
  match s.cfg.unknownPolicy with
  | .nop => complete s (.ok (advanceIp 1 s))
  | .fault => complete s (.error (.opcode op))

/-- Memory with bytes at consecutive 16-bit addresses, the addresses modulo `2^16` as the fetch takes them (40_cycle.md
R104); an address outside the buffer of `len` bytes holds nothing and is passed over. -/
def placeBytes (len : Nat) : Word → List Byte → Memory → Memory
  | _, [], m => m
  | a, b :: rest, m => placeBytes len (stepUp a 1) rest (if a.toNat < len then memSet m a.toNat b else m)

end Sys2Proof.Machine
end

