-- ==== Sys2Proof/Machine/Step.lean ====
section
/-! DEFINITION. `step()` (40_cycle.md R102), and the placing of one instruction where the next step fetches. -/

namespace Sys2Proof.Machine

/-- One `step()`. On a `Running` instance: fetch the opcode and every operand, then run the instruction (40_cycle.md
R102, R103). On a `Faulted` instance the call is refused and reports the stored fault (10_state.md R39). -/
def step (s : State) : Host.Outcome State Fault Refusal :=
  match s.status with
  | .faulted f => .refused (.instanceFaulted f)
  | .running =>
    match fetchInstr s with
    | .error e => complete s (.error e)
    | .ok (.unassigned op _) => execUnassigned op s
    | .ok (.instr i _) => exec i s

/-- The state with one instruction of the opcode table, given by its bits, stored at `ip`, where the next step fetches:
the driver's placing of a program (70_reset_and_hazards.md R215; assumption log 15). -/
def State.withFetchWord (s : State) (nbits w : Nat) : State :=
  s.setMem (placeBytes s.cfg.memLen (s.reg .ip) (tableInstrBytes nbits w) s.mem)

end Sys2Proof.Machine
end

