-- ==== Sys2Proof/Machine/HostPort.lean ====
section
/-! DEFINITION. The host port (10_state.md R35 to R41, 60_exceptions.md R193): the name-checked register accessors, the
read-only inspection surface, and the driver's own reads and writes of memory. The host uses names, instructions use raw
indices; neither uses the other's tier (10_state.md R41). -/

namespace Sys2Proof.Machine

/-- What a host call reports instead of a result. It changes no state (60_exceptions.md R184). -/
inductive HostError where
  /-- `InvalidRegisterName`, code 3: raised by `getRegister` and `setRegister` only (60_exceptions.md R180, R184). -/
  | invalidRegisterName (name : String)
  /-- The host asked for bytes outside `0 .. L-1` (10_state.md R40; assumption log 17). -/
  | outOfRange (addr count : Nat)
  deriving DecidableEq, Repr

/-- The numeric codes of the step faults (60_exceptions.md R180). -/
def faultCode : Fault → Nat
  | .outOfBounds _ _ _ _ => 1
  | .invalidOpcode _ _ => 2

/-- The numeric code of `InvalidRegisterName` (60_exceptions.md R180). -/
def invalidRegisterNameCode : Nat := 3

/-- The name of a register (10_state.md R22). -/
def registerName : RegName → String
  | .ip => "ip"
  | .acc => "acc"
  | .r1 => "r1"
  | .r2 => "r2"
  | .r3 => "r3"
  | .r4 => "r4"
  | .r5 => "r5"
  | .r6 => "r6"
  | .r7 => "r7"
  | .r8 => "r8"
  | .sp => "sp"
  | .fp => "fp"

/-- The register a name selects: an exact, case-sensitive match with one of the twelve names (10_state.md R35;
assumption log 16). -/
def registerNamed (name : String) : Option RegName := RegName.all.find? (fun r => registerName r == name)

/-- `getRegister(name)` (10_state.md R35). It changes no state. On a `Faulted` instance `ip` holds a free value and every
other register its stored value (R38; assumption log 9). -/
def getRegister (name : String) (s : State) : Except HostError Word :=
  match registerNamed name with
  | some r => .ok (s.reg r)
  | none => .error (.invalidRegisterName name)

/-- `setRegister(name, value)`: the value modulo `2^16`, whatever the status, which does not change (10_state.md R36,
R38). -/
def setRegister (name : String) (value : Int) (s : State) : Except HostError State :=
  match registerNamed name with
  | some r => .ok (s.setReg r (BitVec.ofInt 16 value))
  | none => .error (.invalidRegisterName name)

/-- The bytes at `count` consecutive addresses. -/
def bytesFrom (m : Memory) : Nat → Nat → List Byte
  | _, 0 => []
  | a, n + 1 => memGet m a :: bytesFrom m (a + 1) n

/-- The inspection surface's byte dump: an error if the request reaches outside `0 .. L-1` (10_state.md R40). -/
def dumpBytes (a count : Nat) (s : State) : Except HostError (List Byte) :=
  if count = 0 ∨ a + count ≤ byteLength s then .ok (bytesFrom s.mem a count) else .error (.outOfRange a count)

/-- The inspection surface's listing of all named registers and their values (10_state.md R40). -/
def listRegisters (s : State) : List (String × Word) := RegName.all.map fun r => (registerName r, s.reg r)

/-- A memory access of the driver between steps: the port's own result, its failure reported to the driver only, so that
the instance's status does not change (20_memory.md R65, 60_exceptions.md R193; assumption log 17). -/
def hostAccess {α : Type} (a count : Nat) (r : Except Abort α) : Except HostError α :=
  match r with
  | .ok x => .ok x
  | .error _ => .error (.outOfRange a count)

/-- The driver reads one byte. -/
def hostRead8 (a : Nat) (s : State) : Except HostError Byte := hostAccess a 1 (memRead8 s a)

/-- The driver reads one word. -/
def hostRead16 (a : Nat) (s : State) : Except HostError Word := hostAccess a 2 (memRead16 s a)

/-- The driver writes one byte. -/
def hostWrite8 (a : Nat) (v : Byte) (s : State) : Except HostError State := hostAccess a 1 (memWrite8 s a v)

/-- The driver writes one word. -/
def hostWrite16 (a : Nat) (v : Word) (s : State) : Except HostError State := hostAccess a 2 (memWrite16 s a v)

end Sys2Proof.Machine
end

