-- ==== Sys2Proof/Machine/Assembly.lean ====
section
/-! DEFINITION. The spec's notation for an instruction: its mnemonic and its operands in fetch order (30_encoding.md R90).
It is notation only; the assembler is out of scope (00_scope.md R5). -/

namespace Sys2Proof.Machine

/-- The mnemonic as the opcode map spells it (30_encoding.md R85). -/
def mnemonicName : Mnemonic → String
  | .movLitReg => "MOV_LIT_REG"
  | .movRegReg => "MOV_REG_REG"
  | .movRegMem => "MOV_REG_MEM"
  | .movMemReg => "MOV_MEM_REG"
  | .addRegReg => "ADD_REG_REG"
  | .jmpNotEq => "JMP_NOT_EQ"
  | .pshLit => "PSH_LIT"
  | .pshReg => "PSH_REG"
  | .pop => "POP"

/-- One hexadecimal digit. -/
def hexDigit (n : Nat) : Char := Char.ofNat (if n < 10 then 48 + n else 55 + n)

/-- A `lit16` or `addr16` operand, `0xhhhh`. -/
def asmWord (v : Word) : String :=
  String.ofList ['0', 'x', hexDigit (v.toNat / 4096), hexDigit (v.toNat / 256 % 16), hexDigit (v.toNat / 16 % 16),
    hexDigit (v.toNat % 16)]

/-- A `reg8` operand: the register's name, or `#n` outside `0 .. 11`. -/
def asmReg (i : RegIx) : String :=
  match regOf i with
  | some r => registerName r
  | none => "#" ++ Nat.repr i.toNat

/-- The operands in fetch order. -/
def asmOperands : Instr → List String
  | .movLitReg lit dst => [asmWord lit, asmReg dst]
  | .movRegReg src dst => [asmReg src, asmReg dst]
  | .movRegMem src addr => [asmReg src, asmWord addr]
  | .movMemReg addr dst => [asmWord addr, asmReg dst]
  | .addRegReg fst snd => [asmReg fst, asmReg snd]
  | .jmpNotEq lit target => [asmWord lit, asmWord target]
  | .pshLit lit => [asmWord lit]
  | .pshReg src => [asmReg src]
  | .pop dst => [asmReg dst]

/-- An instruction as the spec writes it, for example `MOV_LIT_REG 0x0005, r1`. -/
def asm (i : Instr) : String := mnemonicName i.mnemonic ++ " " ++ String.intercalate ", " (asmOperands i)

end Sys2Proof.Machine
end

