-- ==== Sys2Proof/Machine/Driver.lean ====
section
/-! DEFINITION. A run as the host sees it: a sequence of host operations, each atomic and between steps
(60_exceptions.md R193, 70_reset_and_hazards.md R220), and the spec's stop policy (R222). Construction is
State.construct. -/

namespace Sys2Proof.Machine

/-- The operations of the host on a constructed instance (60_exceptions.md R193). -/
inductive HostOp where
  | step
  | getRegister (name : String)
  | setRegister (name : String) (value : Int)
  | read8 (a : Nat)
  | read16 (a : Nat)
  | write8 (a : Nat) (v : Byte)
  | write16 (a : Nat) (v : Word)
  | dump (a count : Nat)
  | registers
  deriving DecidableEq, Repr

/-- What the host gets back (60_exceptions.md R193). -/
inductive HostReply where
  | ok
  /-- The step ended in this fault. -/
  | fault (f : Fault)
  /-- The call was refused. -/
  | refused (r : Refusal)
  | byte (v : Byte)
  | word (v : Word)
  | bytes (l : List Byte)
  | listing (l : List (String × Word))
  | error (e : HostError)
  deriving DecidableEq, Repr

/-- The host calls `step()`: ok, or the fault record; a refused call changes nothing (10_state.md R39,
60_exceptions.md R181). -/
def hostStep (s : State) : State × HostReply :=
  match step s with
  | .next t =>
    match t.status with
    | .running => (t, .ok)
    | .faulted f => (t, .fault f)
  | .fault f => (s, .fault f)
  | .refused r => (s, .refused r)

/-- A host call that changes no state. -/
def hostQuery {α : Type} (s : State) (reply : α → HostReply) : Except HostError α → State × HostReply
  | .ok x => (s, reply x)
  | .error e => (s, .error e)

/-- A host call that writes. -/
def hostUpdate (s : State) : Except HostError State → State × HostReply
  | .ok t => (t, .ok)
  | .error e => (s, .error e)

/-- One host operation (60_exceptions.md R193). -/
def perform (op : HostOp) (s : State) : State × HostReply :=
  match op with
  | .step => hostStep s
  | .getRegister name => hostQuery s .word (getRegister name s)
  | .setRegister name v => hostUpdate s (setRegister name v s)
  | .read8 a => hostQuery s .byte (hostRead8 a s)
  | .read16 a => hostQuery s .word (hostRead16 a s)
  | .write8 a v => hostUpdate s (hostWrite8 a v s)
  | .write16 a v => hostUpdate s (hostWrite16 a v s)
  | .dump a n => hostQuery s .bytes (dumpBytes a n s)
  | .registers => (s, .listing (listRegisters s))

/-- A run: the operations one after another, each seeing all the writes of those before it (20_memory.md R62,
70_reset_and_hazards.md R220). -/
def performAll : List HostOp → State → State × List HostReply
  | [], s => (s, [])
  | op :: rest, s =>
    let (t, r) := perform op s
    let (u, rs) := performAll rest t
    (u, r :: rs)

/-- How a run under the stop policy ends (70_reset_and_hazards.md R222). -/
inductive RunEnd where
  /-- `ip = E` was observed before a step. -/
  | normal (s : State)
  /-- In error: the status became `Faulted`. -/
  | faulted (f : Fault) (s : State)
  /-- In error: `N` steps passed first. -/
  | exhausted (s : State)
  /-- A step on a `Running` instance had no transition. No run ends so. -/
  | noTransition (s : State)
  deriving DecidableEq, Repr

/-- The stop policy: `step()` while the status is `Running` and `ip` differs from the end address `e`, at most `n` times
(70_reset_and_hazards.md R222; assumption log 18). -/
def runTo (e : Word) (n : Nat) (s : State) : RunEnd :=
  match s.status with
  | .faulted f => .faulted f s
  | .running =>
    if s.reg .ip = e then .normal s
    else
      match n with
      | 0 => .exhausted s
      | k + 1 =>
        match step s with
        | .next t => runTo e k t
        | .fault _ => .noTransition s
        | .refused _ => .noTransition s

end Sys2Proof.Machine
end

