-- ==== Sys2Proof/Safety.lean ====
section
/-! DEFINITION. The terms the statements use: the well-formed states, what an instruction may change, and the spec's own
table of the faults of a step (60_exceptions.md R185, R187), written from that table and not from the step. -/

namespace Sys2Proof.Machine

/-- The byte of memory at an address. -/
def State.byte (s : State) (a : Nat) : Byte := memGet s.mem a

/-- A well-formed state: the parameters satisfy 00_scope.md R6, memory is in its canonical form, and it lists only bytes
of the buffer (20_memory.md R50). -/
abbrev State.wf (s : State) : Prop := s.cfg.wf ∧ Memory.wf s.mem ∧ Memory.within s.cfg.memLen s.mem

/-- `t` holds these registers and these bytes, and is `s` in everything else: the status, the configuration and the
model's counter of free values. -/
def Becomes (s t : State) (x : RegName → Word) (b : Nat → Byte) : Prop :=
  (∀ r, t.reg r = x r) ∧ (∀ a, t.byte a = b a) ∧ t.status = s.status ∧ t.cfg = s.cfg ∧ t.draws = s.draws

/-- What the effect of an instruction of `len` bytes reads from a register: `ip` is past the instruction, every other
register is as before the step (40_cycle.md R103). -/
def effectReg (s : State) (len : Word) (r : RegName) : Word := if r = .ip then s.reg .ip + len else s.reg r

/-- The bytes after a 16-bit big-endian store of `v` at `a` (20_memory.md R52). -/
def storedBytes (s : State) (a : Nat) (v : Word) (b : Nat) : Byte :=
  if b = a then v.extractLsb' 8 8 else if b = a + 1 then v.extractLsb' 0 8 else s.byte b

/-- The 16-bit big-endian value at `a` (20_memory.md R52). -/
def wordAt (s : State) (a : Nat) : Word := s.byte a ++ s.byte (a + 1)

/-- The address an instruction's effect stores to, in a step that starts in `s`: `addr16` for MOV_REG_MEM, `sp` for the
pushes, none for the other six (20_memory.md R57). -/
def storeAddress : Instr → State → Option Word
  | .movLitReg _ _, _ => none
  | .movRegReg _ _, _ => none
  | .movRegMem _ addr, _ => some addr
  | .movMemReg _ _, _ => none
  | .addRegReg _ _, _ => none
  | .jmpNotEq _ _, _ => none
  | .pshLit _, s => some (s.reg .sp)
  | .pshReg _, s => some (s.reg .sp)
  | .pop _, _ => none

/-- The value a push pushes in a step that starts in `s`: the literal of PSH_LIT (44_stack.md R160), the register of
PSH_REG, read with `ip` past the instruction (R163); none for any other instruction, or a register outside the bank. -/
def pushedValue : Instr → State → Option Word
  | .pshLit lit, _ => some lit
  | .pshReg src, s => (regOf src).map (effectReg s 2)
  | .movLitReg _ _, _ => none
  | .movRegReg _ _, _ => none
  | .movRegMem _ _, _ => none
  | .movMemReg _ _, _ => none
  | .addRegReg _ _, _ => none
  | .jmpNotEq _ _, _ => none
  | .pop _, _ => none

/-- The twelve names of 10_state.md R35, each with the register of R20 it names. -/
def namedRegisters : List (String × RegName) :=
  [("ip", .ip), ("acc", .acc), ("r1", .r1), ("r2", .r2), ("r3", .r3), ("r4", .r4), ("r5", .r5), ("r6", .r6),
    ("r7", .r7), ("r8", .r8), ("sp", .sp), ("fp", .fp)]

/-- The registers an instruction's effect may write besides the advance of `ip`: its destination register, `acc` for
ADD_REG_REG (42_arithmetic.md R140), `sp` for the stack instructions (10_state.md R29), `ip` for JMP_NOT_EQ
(43_control.md R150). -/
def writtenRegs : Instr → List RegName
  | .movLitReg _ dst => (regOf dst).toList
  | .movRegReg _ dst => (regOf dst).toList
  | .movRegMem _ _ => []
  | .movMemReg _ dst => (regOf dst).toList
  | .addRegReg _ _ => [.acc]
  | .jmpNotEq _ _ => [.ip]
  | .pshLit _ => [.sp]
  | .pshReg _ => [.sp]
  | .pop dst => .sp :: (regOf dst).toList

/-! ### The faults of a step, in the order the spec gives them -/

/-- The fault of a memory access of `width` bytes at `a`, if it is out of range (20_memory.md R53 to R55). -/
def memoryFault (s : State) (a : Word) (width : Nat) : Option Fault :=
  if s.cfg.memLen < a.toNat + width then some (.outOfBounds .memory a.toNat width (s.reg .ip)) else none

/-- The fault of an access at raw index `i`, if it is outside `0 .. 11` (10_state.md R25). -/
def registerFault (s : State) (i : RegIx) : Option Fault :=
  if 12 ≤ i.toNat then some (.outOfBounds .registerBank (2 * i.toNat) 2 (s.reg .ip)) else none

/-- The accesses of an instruction's effect in statement order, each with the fault it raises if it fails
(60_exceptions.md R185: the columns `register bank` and `memory data`). -/
def effectFaults : Instr → State → List (Option Fault)
  | .movLitReg _ dst, s => [registerFault s dst]
  | .movRegReg src dst, s => [registerFault s src, registerFault s dst]
  | .movRegMem src addr, s => [registerFault s src, memoryFault s addr 2]
  | .movMemReg addr dst, s => [memoryFault s addr 2, registerFault s dst]
  | .addRegReg fst snd, s => [registerFault s fst, registerFault s snd]
  | .jmpNotEq _ _, _ => []
  | .pshLit _, s => [memoryFault s (s.reg .sp) 2]
  | .pshReg src, s => [registerFault s src, memoryFault s (s.reg .sp) 2]
  | .pop dst, s => [memoryFault s (s.reg .sp + 2) 2, registerFault s dst]

/-- The effect of an instruction, in a step that starts in `s`, comes to an access at raw index `x`: the index is one of its
register operands, and the accesses its rule writes before that one succeed (60_exceptions.md R185; the order is the
spec's decision D7: assumption log 12). -/
def reachesIndex (x : RegIx) : Instr → State → Prop
  | .movLitReg _ dst, _ => dst = x
  | .movRegReg src dst, _ => src = x ∨ (src.toNat < 12 ∧ dst = x)
  | .movRegMem src _, _ => src = x
  | .movMemReg addr dst, s => addr.toNat + 2 ≤ s.cfg.memLen ∧ dst = x
  | .addRegReg fst snd, _ => fst = x ∨ (fst.toNat < 12 ∧ snd = x)
  | .jmpNotEq _ _, _ => False
  | .pshLit _, _ => False
  | .pshReg src, _ => src = x
  | .pop dst, s => (s.reg .sp + 2).toNat + 2 ≤ s.cfg.memLen ∧ dst = x

/-- The widths of the operand fields in fetch order (60_exceptions.md R185: the column `fetch`; 30_encoding.md R85). -/
def operandWidths : Mnemonic → List Nat
  | .movLitReg => [2, 1]
  | .movRegReg => [1, 1]
  | .movRegMem => [1, 2]
  | .movMemReg => [2, 1]
  | .addRegReg => [1, 1]
  | .jmpNotEq => [2, 2]
  | .pshLit => [2]
  | .pshReg => [1]
  | .pop => [1]

/-- The operand fetches from address `a`, addresses modulo `2^16` (40_cycle.md R104). -/
def fetchFaults (s : State) : Word → List Nat → List (Option Fault)
  | _, [] => []
  | a, w :: ws => memoryFault s a w :: fetchFaults s (a + BitVec.ofNat 16 w) ws

/-- The first failing access (60_exceptions.md R187). -/
def firstFault (l : List (Option Fault)) : Option Fault := l.findSome? id

/-- The `n` bytes from address `a` on, addresses modulo `2^16` (30_encoding.md R84). -/
def bytesAt (s : State) : Word → Nat → List Byte
  | _, 0 => []
  | a, n + 1 => s.byte a.toNat :: bytesAt s (a + 1) n

/-- The fault of a step that starts in `s`, if it has one: the opcode fetch, then the operand fetches, then the effect's
accesses; an unassigned opcode has none under `nop` and `InvalidOpcode` under `fault` (60_exceptions.md R185, R187). -/
def stepFault (s : State) : Option Fault :=
  match memoryFault s (s.reg .ip) 1 with
  | some f => some f
  | none =>
    match decode s.cfg.opcodes (bytesAt s (s.reg .ip) 5) with
    | .ok (i, _) =>
      firstFault (fetchFaults s (s.reg .ip + 1) (operandWidths i.mnemonic) ++ effectFaults i s)
    | .error _ =>
      match s.cfg.unknownPolicy with
      | .nop => none
      | .fault => some (.invalidOpcode (s.byte (s.reg .ip).toNat) (s.reg .ip))

/-- The status a step or an instruction ends with, from the fault it raises, if any. -/
def statusAfter (s : State) : Option Fault → Status
  | some f => .faulted f
  | none => s.status

/-- None of the states a run from `s` passes in its first `k` steps, `s` first, is one at which the stop policy with end
address `e` stops normally: `Running` with `ip = e` (70_reset_and_hazards.md R222). -/
def NotEndedBefore (e : Word) (k : Nat) (s : State) : Prop :=
  ∀ j u, j < k → core.run j s = .next u → ¬ (u.status = .running ∧ u.reg .ip = e)

/-- A safe step: it answers a next state that is `Running`. -/
def SafeStep (s : State) : Prop := ∃ t, step s = .next t ∧ t.status = .running

end Sys2Proof.Machine
end

