-- ==== Sys2Proof/Certificates/Slice0/Obligations.lean ====
section
/-! DEFINITION. The statements for the provers. Each docstring names the rule of spec/ it formalises. A statement about
`exec` is about a state in which `ip` holds the address of the opcode byte. -/

open Sys2Proof Sys2Proof.Machine

/-! ### Encoding -/

/-- Under any injective OPCODE, decoding the encoding of any instruction, whatever follows it, gives the instruction
back and leaves what follows (30_encoding.md R80, R84 to R86, R88). Every term of Instr is well formed. -/
def Obligations.DecodeOfEncodeGivesTheInstruction : Prop :=
  ∀ (m : OpcodeMap), m.wf → ∀ (i : Instr) (rest : List Byte), decode m (encode m i ++ rest) = .ok (i, rest)

/-- The other direction: bytes that decode are the encoding of what they decode to, so that no bit of an operand is
ignored, and no bit but the opcode's is fixed (30_encoding.md R88). -/
def Obligations.DecodedBytesAreTheEncoding : Prop :=
  ∀ (m : OpcodeMap) (l rest : List Byte) (i : Instr), decode m l = .ok (i, rest) → l = encode m i ++ rest

/-- The opcode byte alone selects the instruction: a byte selects a mnemonic exactly if it is the mnemonic's opcode, and
bytes that decode give an instruction of the mnemonic their first byte selects (30_encoding.md R86). -/
def Obligations.OpcodeByteSelectsTheMnemonic : Prop :=
  ∀ (m : OpcodeMap), m.wf →
    (∀ (op : Byte) (mn : Mnemonic), lookupOpcode m op = some mn ↔ op = m.code mn) ∧
    (∀ (op : Byte) (l rest : List Byte) (i : Instr), decode m (op :: l) = .ok (i, rest) → op = m.code i.mnemonic)

/-- Under any injective OPCODE, 247 of the 256 byte values match no mnemonic (30_encoding.md R87). -/
def Obligations.UnassignedOpcodesAre247 : Prop :=
  ∀ (m : OpcodeMap), m.wf →
    ((List.range 256).filter fun n => (lookupOpcode m (BitVec.ofNat 8 n)).isNone).length = 247

/-- Under the reference assignment (PRESUMED: assumption log 3) and the opcode table's numbering (assumption log 14),
words of the spec's own encodings, 16-bit fields big-endian (decision D1: assumption log 10), decode to the instructions
they stand for (30_encoding.md R90, 41_data_movement.md R120 to R126, 42_arithmetic.md R140, 43_control.md R150,
44_stack.md R160 to R166). -/
def Obligations.WordsOfTheSpecDecode : Prop :=
  decodeTableWord 32 0x10000502 = some (.movLitReg 0x0005 0x02) ∧
  decodeTableWord 24 0x110102 = some (.movRegReg 0x01 0x02) ∧
  decodeTableWord 32 0x12020100 = some (.movRegMem 0x02 0x0100) ∧
  decodeTableWord 32 0x13010004 = some (.movMemReg 0x0100 0x04) ∧
  decodeTableWord 24 0x140203 = some (.addRegReg 0x02 0x03) ∧
  decodeTableWord 40 0x1500030004 = some (.jmpNotEq 0x0003 0x0004) ∧
  decodeTableWord 24 0x171234 = some (.pshLit 0x1234) ∧
  decodeTableWord 16 0x1803 = some (.pshReg 0x03) ∧
  decodeTableWord 16 0x1A02 = some (.pop 0x02) ∧
  decodeTableWord 8 0x00 = none

/-! ### The memory port -/

/-- The port accepts an 8-bit access at `a` exactly if `a <= L - 1` and a 16-bit access, of the bytes at `a` and `a +
1`, exactly if `a <= L - 2`, with no alignment, and stops any other with an out-of-bounds access of that address and
width (20_memory.md R53, R54); that a 16-bit read is big-endian is R52, the spec's decision D1: assumption log 10. -/
def Obligations.PortAcceptsExactlyTheBytesOfTheBuffer : Prop :=
  ∀ (s : State) (a : Nat) (b : Byte) (v : Word), s.cfg.wf →
    ((a ≤ s.cfg.memLen - 1 → memRead8 s a = .ok (s.byte a) ∧ ∃ t, memWrite8 s a b = .ok t) ∧
     (¬ a ≤ s.cfg.memLen - 1 →
        memRead8 s a = .error (.memory .read a 1) ∧ memWrite8 s a b = .error (.memory .write a 1))) ∧
    ((a ≤ s.cfg.memLen - 2 → memRead16 s a = .ok (wordAt s a) ∧ ∃ t, memWrite16 s a v = .ok t) ∧
     (¬ a ≤ s.cfg.memLen - 2 →
        memRead16 s a = .error (.memory .read a 2) ∧ memWrite16 s a v = .error (.memory .write a 2)))

/-- Every 16-bit access is big-endian: a read, a write and `fetch16()`; and a word MOV_REG_MEM stores is fetched byte by
byte with the more significant byte at the lower address (20_memory.md R52, the spec's decision D1: assumption log 10; a
source `ip` is stored as the address past the instruction, decision D5: assumption log 11). -/
def Obligations.SixteenBitAccessesAreBigEndian : Prop :=
  (∀ (s : State) (a : Nat) (v : Word), memRead16 s a = .ok v →
      v.toNat = (s.byte a).toNat * 256 + (s.byte (a + 1)).toNat) ∧
  (∀ (s t : State) (a : Nat) (v : Word), Memory.wf s.mem → memWrite16 s a v = .ok t →
      (t.byte a).toNat = v.toNat / 256 ∧ (t.byte (a + 1)).toNat = v.toNat % 256) ∧
  (∀ (s t : State) (v : Word), fetch16 s = .ok (v, t) →
      v.toNat = (s.byte (s.reg .ip).toNat).toNat * 256 + (s.byte ((s.reg .ip).toNat + 1)).toNat) ∧
  (∀ (s t u w : State) (r : RegIx) (q : RegName) (a : Word) (b c : Byte), Memory.wf s.mem → s.status = .running →
      regOf r = some q → exec (.movRegMem r a) s = .next t → t.status = .running →
      fetch8 (t.setReg .ip a) = .ok (b, u) → fetch8 (t.setReg .ip (a + 1)) = .ok (c, w) →
      a.toNat + 1 < 0x10000 →
      b.toNat = (effectReg s 4 q).toNat / 256 ∧ c.toNat = (effectReg s 4 q).toNat % 256)

/-- Memory is plain storage: a write changes only the bytes it names, and a read of them returns what was written
(20_memory.md R58). -/
def Obligations.WritesChangeOnlyTheBytesTheyName : Prop :=
  ∀ (s t : State) (a : Nat), Memory.wf s.mem →
    (∀ (v : Byte), memWrite8 s a v = .ok t →
      memRead8 t a = .ok v ∧ (∀ b, b ≠ a → t.byte b = s.byte b) ∧ t.regs = s.regs ∧ t.status = s.status) ∧
    (∀ (v : Word), memWrite16 s a v = .ok t →
      memRead16 t a = .ok v ∧ (∀ b, b ≠ a → b ≠ a + 1 → t.byte b = s.byte b) ∧ t.regs = s.regs ∧ t.status = s.status)

/-! ### The register bank -/

/-- A register's raw index is its position in the list `ip, acc, r1, ..., r8, sp, fp`; no other index selects a register
(10_state.md R22, derived by the spec from the order of R20). -/
def Obligations.RawIndexIsTheListPosition : Prop :=
  regOf 0 = some .ip ∧ regOf 1 = some .acc ∧ regOf 2 = some .r1 ∧ regOf 3 = some .r2 ∧ regOf 4 = some .r3 ∧
  regOf 5 = some .r4 ∧ regOf 6 = some .r5 ∧ regOf 7 = some .r6 ∧ regOf 8 = some .r7 ∧ regOf 9 = some .r8 ∧
  regOf 10 = some .sp ∧ regOf 11 = some .fp ∧ ∀ i : RegIx, 12 ≤ i.toNat → regOf i = none

/-- Every register with index `0 .. 11` can be written and read back through its raw index, and the write leaves the
other eleven, memory and the status alone: no register is read-only or hard-wired (10_state.md R24). -/
def Obligations.EveryRegisterIsReadableAndWritable : Prop :=
  ∀ (i : RegIx) (v : Word) (s : State), i.toNat < 12 →
    ∃ r t, regOf i = some r ∧ writeReg i v s = .ok t ∧ readReg i t = .ok v ∧
      Becomes s t (fun q => if q = r then v else s.reg q) s.byte

/-- A raw index in `12 .. 255` stops the access, read or write, with the record `OutOfBounds(RegisterBank, 2*i, 2)`,
whose offset is in `24 .. 510`. Every instruction whose effect comes to an access at such an index ends `Faulted` with
that record, with no register but `ip` and no byte of memory changed, and no step follows it. Fetching the index byte
raises nothing (10_state.md R25; that the fault is fatal, and a next state: R181, R39, decisions D6 and D21 of the spec,
assumption log 6; which access comes first: decision D7, assumption log 12; the pop address wraps: decision D8,
assumption log 13; what the fault leaves: R182, assumption log 22). The fields of the fault record are R180, decision
D18: assumption log 16. -/
def Obligations.OutOfBankIndexFaultsOnAccess : Prop :=
  ∀ (x : RegIx) (v : Word) (s : State), 12 ≤ x.toNat →
    ∃ e f, readReg x s = .error e ∧ writeReg x v s = .error e ∧ faultRecord (s.reg .ip) e = f ∧
      f = .outOfBounds .registerBank (2 * x.toNat) 2 (s.reg .ip) ∧ 24 ≤ 2 * x.toNat ∧ 2 * x.toNat ≤ 510 ∧
      (∀ i, reachesIndex x i s → ∃ t, exec i s = .next t ∧ t.status = .faulted f ∧
        step t = .refused (.instanceFaulted f) ∧ (∀ r, r ≠ .ip → t.reg r = s.reg r) ∧ (∀ a, t.byte a = s.byte a)) ∧
      ((s.reg .ip).toNat < s.cfg.memLen → s.byte (s.reg .ip).toNat = x → ∃ t, fetch8 s = .ok (x, t))

/-! ### Fetch -/

/-- `fetch8()` returns the byte at `ip` and advances `ip` by 1 modulo `2^16`, changing nothing else; at `ip >= L` it
stops with `OutOfBounds(Memory, ip, 1)` (40_cycle.md R100). The fields of the fault record are R180, decision D18:
assumption log 16. -/
def Obligations.FetchEightReadsAndAdvances : Prop :=
  ∀ s : State,
    ((s.reg .ip).toNat < s.cfg.memLen →
      ∃ t, fetch8 s = .ok (s.byte (s.reg .ip).toNat, t) ∧
        (t.reg .ip).toNat = ((s.reg .ip).toNat + 1) % 65536 ∧
        Becomes s t (fun r => if r = .ip then t.reg .ip else s.reg r) s.byte) ∧
    (s.cfg.memLen ≤ (s.reg .ip).toNat →
      ∃ e, fetch8 s = .error e ∧
        faultRecord (s.reg .ip) e = .outOfBounds .memory (s.reg .ip).toNat 1 (s.reg .ip))

/-- `fetch16()` returns the big-endian word at `ip` and advances `ip` by 2 modulo `2^16`, changing nothing else; at `ip
>= L - 1` it stops with `OutOfBounds(Memory, ip, 2)`, so at `0xFFFF` for every `L` (40_cycle.md R101; that the word is
big-endian is 20_memory.md R52, the spec's decision D1: assumption log 10). The fields of the fault record are R180,
decision D18: assumption log 16. -/
def Obligations.FetchSixteenReadsAndAdvances : Prop :=
  ∀ s : State, s.cfg.wf →
    ((s.reg .ip).toNat < s.cfg.memLen - 1 →
      ∃ t, fetch16 s = .ok (wordAt s (s.reg .ip).toNat, t) ∧
        (t.reg .ip).toNat = ((s.reg .ip).toNat + 2) % 65536 ∧
        Becomes s t (fun r => if r = .ip then t.reg .ip else s.reg r) s.byte) ∧
    (s.cfg.memLen - 1 ≤ (s.reg .ip).toNat →
      ∃ e, fetch16 s = .error e ∧
        faultRecord (s.reg .ip) e = .outOfBounds .memory (s.reg .ip).toNat 2 (s.reg .ip)) ∧
    (s.reg .ip = 0xFFFF → ∃ e, fetch16 s = .error e)

/-- Where no fetch fails, the fetch reads the instruction that the bytes from `ip` on, addresses modulo `2^16`, decode
to, and leaves `ip` past its last byte and everything else as it was: all operands are fetched before the effect
(40_cycle.md R103, the spec's decision D5: assumption log 11; R104; 30_encoding.md R84, R89; R82, decision D1:
assumption log 10). -/
def Obligations.FetchReadsTheDecodedInstruction : Prop :=
  ∀ (s : State) (i : Instr) (rest : List Byte), s.cfg.wf →
    decode s.cfg.opcodes (bytesAt s (s.reg .ip) 5) = .ok (i, rest) →
    memoryFault s (s.reg .ip) 1 = none →
    firstFault (fetchFaults s (s.reg .ip + 1) (operandWidths i.mnemonic)) = none →
    ∃ t, fetchInstr s = .ok (.instr i t) ∧
      Becomes s t (fun r => if r = .ip then s.reg .ip + BitVec.ofNat 16 (instrLength i.mnemonic) else s.reg r) s.byte

/-! ### The step -/

/-- A step of a `Running` instance whose fetch reads an instruction runs exactly that instruction on the same state
(40_cycle.md R102, R105; the fetches come before the effect, R103, decision D5: assumption log 11; a fault of the
instruction is a next state, DEDUCED: assumption log 6). -/
def Obligations.StepRunsTheFetchedInstruction : Prop :=
  ∀ (s t : State) (i : Instr), s.status = .running → fetchInstr s = .ok (.instr i t) → step s = exec i s

/-- A step of a `Running` instance at whose `ip` the encoding of an instruction lies in memory runs exactly that
instruction (40_cycle.md R102, R105; 30_encoding.md R84; the byte order of its fields is R82, decision D1: assumption
log 10; the fetches come before the effect, R103, decision D5: assumption log 11). -/
def Obligations.StepRunsTheInstructionInMemory : Prop :=
  ∀ (s : State) (i : Instr), s.cfg.wf → s.status = .running →
    (s.reg .ip).toNat + instrLength i.mnemonic ≤ s.cfg.memLen →
    bytesAt s (s.reg .ip) (instrLength i.mnemonic) = encode s.cfg.opcodes i →
    step s = exec i s

/-- A step of a `Running` instance performs one instruction and answers a next state; on a `Faulted` instance the call
is refused, reports the stored fault and changes nothing (10_state.md R39, which the spec marks its own decision; that a
fault ends the step in a next state is DEDUCED: assumption log 6). -/
def Obligations.StepRunsOnlyARunningInstance : Prop :=
  ∀ s : State,
    (s.status = .running → ∃ t, step s = .next t) ∧
    (∀ f, s.status = .faulted f →
      step s = .refused (.instanceFaulted f) ∧ hostStep s = (s, .refused (.instanceFaulted f)))

/-- An unassigned opcode byte: under `nop` the step only moves `ip` past it; under `fault` the step ends `Faulted` with
`InvalidOpcode(op, A)`, no register but `ip` and no byte changed (40_cycle.md R106, a parameter of the spec, decision
D4; a fault is a next state: assumption log 6; what it leaves is 60_exceptions.md R182, decision D6: assumption log 22).
The fields of the fault record are R180, decision D18: assumption log 16. -/
def Obligations.UnassignedOpcodeFollowsThePolicy : Prop :=
  ∀ (s : State) (op : Byte), s.status = .running → (s.reg .ip).toNat < s.cfg.memLen →
    s.byte (s.reg .ip).toNat = op → lookupOpcode s.cfg.opcodes op = none →
    ∃ t, step s = .next t ∧
      match s.cfg.unknownPolicy with
      | .nop => Becomes s t (fun r => if r = .ip then s.reg .ip + 1 else s.reg r) s.byte
      | .fault =>
        t.status = .faulted (.invalidOpcode op (s.reg .ip)) ∧ t.cfg = s.cfg ∧
          (∀ r, r ≠ .ip → t.reg r = s.reg r) ∧ (∀ a, t.byte a = s.byte a)

/-- Under `nop`, a run over memory filled with unassigned bytes advances `ip` by 1 per step. It ends in `OutOfBounds` at
`ip = L` when `L < 0x10000`, and wraps forever when `L = 0x10000` (40_cycle.md R106; 70_reset_and_hazards.md R221; the
fault is a next state: assumption log 6). The fields of the fault record are R180, decision D18: assumption log 16. -/
def Obligations.RunOverUnassignedBytes : Prop :=
  ∀ s : State, s.cfg.wf → s.status = .running → s.cfg.unknownPolicy = .nop →
    (∀ a, a < s.cfg.memLen → lookupOpcode s.cfg.opcodes (s.byte a) = none) →
    (s.cfg.memLen = 0x10000 → ∀ n, ∃ t, core.run n s = .next t ∧
      Becomes s t (fun r => if r = .ip then s.reg .ip + BitVec.ofNat 16 n else s.reg r) s.byte) ∧
    (s.cfg.memLen < 0x10000 → (s.reg .ip).toNat ≤ s.cfg.memLen →
      (∃ t, core.run (s.cfg.memLen - (s.reg .ip).toNat) s = .next t ∧ t.status = .running ∧
        (t.reg .ip).toNat = s.cfg.memLen) ∧
      ∃ t, core.run (s.cfg.memLen - (s.reg .ip).toNat + 1) s = .next t ∧
        t.status = .faulted (.outOfBounds .memory s.cfg.memLen 1 (BitVec.ofNat 16 s.cfg.memLen)))

/-- A step that ends `Running` has advanced `ip` by exactly the length of its instruction, modulo `2^16`, unless the
effect writes `ip`: a taken JMP_NOT_EQ, or a destination register of raw index 0 (40_cycle.md R110, derived by the spec;
the byte order of the fields is 30_encoding.md R82, decision D1: assumption log 10). -/
def Obligations.SuccessfulStepAdvancesIpByTheLength : Prop :=
  (∀ s t : State, s.cfg.wf → s.status = .running → step s = .next t → t.status = .running →
    (decode s.cfg.opcodes (bytesAt s (s.reg .ip) 5) = .error (.unassigned (s.byte (s.reg .ip).toNat)) ∧
      s.cfg.unknownPolicy = .nop ∧ t.reg .ip = s.reg .ip + 1) ∨
    (∃ i rest, decode s.cfg.opcodes (bytesAt s (s.reg .ip) 5) = .ok (i, rest) ∧
      (t.reg .ip = s.reg .ip + BitVec.ofNat 16 (instrLength i.mnemonic) ∨
        (∃ lit target, i = .jmpNotEq lit target ∧ lit ≠ s.reg .acc) ∨
        (∃ lit, i = .movLitReg lit 0) ∨ (∃ src, i = .movRegReg src 0) ∨ (∃ a, i = .movMemReg a 0) ∨ i = .pop 0))) ∧
  (instrLength .movLitReg = 4 ∧ instrLength .movRegMem = 4 ∧ instrLength .movMemReg = 4) ∧
  (instrLength .movRegReg = 3 ∧ instrLength .addRegReg = 3 ∧ instrLength .pshLit = 3) ∧
  instrLength .jmpNotEq = 5 ∧ instrLength .pshReg = 2 ∧ instrLength .pop = 2

/-- A step of a `Running` instance raises the fault of the first access, in statement order, that fails, and none if
none fails; and it is safe exactly if none fails. The order is the opcode fetch, the operand fetches, then the effect's
accesses as the table of faults by instruction lists them (60_exceptions.md R185, derived by the spec, and R187, its
decision D7: assumption log 12; a fault is a next state: assumption log 6; that the pop address wraps is decision D8:
assumption log 13; the operands are fetched before the effect, decision D5: assumption log 11; the byte order of the
fields is decision D1: assumption log 10). The fields of the fault record are R180, decision D18: assumption log 16. -/
def Obligations.StepRaisesTheFirstFailingAccess : Prop :=
  ∀ s : State, s.cfg.wf → s.status = .running →
    (∃ t, step s = .next t ∧ t.status = statusAfter s (stepFault s)) ∧ (SafeStep s ↔ stepFault s = none)

/-- After a faulting step every register but `ip` and every byte hold their value from before the step, but for byte
`L - 1` when the fault is `OutOfBounds(Memory, L-1, 2)` raised by a store; the status holds the record and the
configuration is unchanged. Nothing is said of `ip` (60_exceptions.md R182, derived by the spec, decision D6: assumption
logs 7, 8, 22; the fault is a next state: assumption log 6). The fields of the fault record are R180, decision D18:
assumption log 16. -/
def Obligations.FaultLeavesRegistersAndMemory : Prop :=
  ∀ (s t : State) (f : Fault), Memory.wf s.mem → s.status = .running → step s = .next t → t.status = .faulted f →
    t.cfg = s.cfg ∧ (∀ r, r ≠ .ip → t.reg r = s.reg r) ∧
    ∀ a, t.byte a = s.byte a ∨
      (a + 1 = s.cfg.memLen ∧ f = .outOfBounds .memory a 2 (s.reg .ip) ∧
        ∃ i u b, fetchInstr s = .ok (.instr i u) ∧ storeAddress i s = some b ∧ b.toNat = a)

/-- The host gets back a step's fault record, and ok where there is none (60_exceptions.md R181, R193, decisions of the
spec: assumption log 6). -/
def Obligations.HostSeesTheFaultOfAStep : Prop :=
  ∀ s : State, s.status = .running →
    ((hostStep s).2 = .ok ∧ (hostStep s).1.status = .running) ∨
    ∃ f, (hostStep s).2 = .fault f ∧ (hostStep s).1.status = .faulted f

/-! ### The instructions -/

/-- MOV_LIT_REG. Its encoding is its opcode, the literal's two bytes and the destination index. With a destination in
the bank it completes: the destination, `ip` included, holds the literal, `ip` is 4 bytes on if it is not the
destination, and nothing else changes. A destination outside the bank faults at the write, and an operand fetch outside
memory faults at the fetch, the literal's first (41_data_movement.md R120; that a fault is a next state whose status is
`Faulted` is 60_exceptions.md R181, decision D6: assumption log 6; that the operands are fetched before the effect is
decision D5: assumption log 11; that `lit[15:8]` comes before `lit[7:0]` is the byte order of 30_encoding.md R82,
decision D1: assumption log 10). The fields of the fault record are R180, decision D18: assumption log 16. -/
def Obligations.MovLitRegWritesTheLiteral : Prop :=
  ∀ (s : State) (lit : Word) (d : RegIx),
    (encode s.cfg.opcodes (.movLitReg lit d) =
      [s.cfg.opcodes.movLitReg, lit.extractLsb' 8 8, lit.extractLsb' 0 8, d]) ∧
    (∀ r, regOf d = some r → ∃ t, exec (.movLitReg lit d) s = .next t ∧
      Becomes s t (fun q => if q = r then lit else effectReg s 4 q) s.byte) ∧
    (12 ≤ d.toNat → ∃ t, exec (.movLitReg lit d) s = .next t ∧
      t.status = .faulted (.outOfBounds .registerBank (2 * d.toNat) 2 (s.reg .ip))) ∧
    (s.cfg.wf → s.status = .running → (s.reg .ip).toNat < s.cfg.memLen →
      s.byte (s.reg .ip).toNat = s.cfg.opcodes.movLitReg →
      (s.cfg.memLen < (s.reg .ip + 1).toNat + 2 → ∃ t, step s = .next t ∧
        t.status = .faulted (.outOfBounds .memory (s.reg .ip + 1).toNat 2 (s.reg .ip))) ∧
      ((s.reg .ip + 1).toNat + 2 ≤ s.cfg.memLen → s.cfg.memLen < (s.reg .ip + 3).toNat + 1 → ∃ t, step s = .next t ∧
        t.status = .faulted (.outOfBounds .memory (s.reg .ip + 3).toNat 1 (s.reg .ip))))

/-- MOV_REG_REG with both registers in the bank completes: the destination holds the source's value, a source `ip`
reading as the address past the instruction (the spec's decision D5: assumption log 11), and nothing else changes
(41_data_movement.md R122). -/
def Obligations.MovRegRegCopiesTheSource : Prop :=
  ∀ (s : State) (a d : RegIx) (p r : RegName), regOf a = some p → regOf d = some r →
    ∃ t, exec (.movRegReg a d) s = .next t ∧
      Becomes s t (fun q => if q = r then effectReg s 3 p else effectReg s 3 q) s.byte

/-- MOV_REG_MEM with its source in the bank and its address in range completes: the two bytes at `addr` hold the
source's value big-endian (the spec's decision D1: assumption log 10), whatever the alignment, and no other byte and no
register but the advancing `ip` changes (41_data_movement.md R124; a source `ip` reads as the address past the
instruction, decision D5: assumption log 11). -/
def Obligations.MovRegMemStoresTheSource : Prop :=
  ∀ (s : State) (a : RegIx) (addr : Word) (p : RegName), Memory.wf s.mem → regOf a = some p →
    addr.toNat + 2 ≤ s.cfg.memLen →
    ∃ t, exec (.movRegMem a addr) s = .next t ∧
      Becomes s t (effectReg s 4) (storedBytes s addr.toNat (effectReg s 4 p))

/-- MOV_MEM_REG with its address in range and its destination in the bank completes: the destination holds the
big-endian word at `addr` (the spec's decision D1: assumption log 10), and nothing else changes (41_data_movement.md
R126). -/
def Obligations.MovMemRegLoadsTheWord : Prop :=
  ∀ (s : State) (addr : Word) (d : RegIx) (r : RegName), addr.toNat + 2 ≤ s.cfg.memLen → regOf d = some r →
    ∃ t, exec (.movMemReg addr d) s = .next t ∧
      Becomes s t (fun q => if q = r then wordAt s addr.toNat else effectReg s 4 q) s.byte

/-- ADD_REG_REG with both registers in the bank completes: `acc` holds the sum modulo `2^16` of the values read before
the write, a source `ip` reading as the address past the instruction (the spec's decision D5: assumption log 11), the
carry is discarded, and nothing else changes (42_arithmetic.md R140, R141). -/
def Obligations.AddRegRegAddsModulo : Prop :=
  ∀ (s : State) (a b : RegIx) (p q : RegName), regOf a = some p → regOf b = some q →
    ∃ t, exec (.addRegReg a b) s = .next t ∧
      (t.reg .acc).toNat = ((effectReg s 3 p).toNat + (effectReg s 3 q).toNat) % 65536 ∧
      Becomes s t (fun r => if r = .acc then t.reg .acc else effectReg s 3 r) s.byte

/-- JMP_NOT_EQ always completes: `ip` holds the target exactly if the literal differs from `acc`, and is 5 bytes on
otherwise; nothing else changes, `acc` included (43_control.md R150). -/
def Obligations.JmpNotEqJumpsExactlyWhenDifferent : Prop :=
  ∀ (s : State) (lit target : Word),
    ∃ t, exec (.jmpNotEq lit target) s = .next t ∧
      Becomes s t (fun q => if q = .ip ∧ lit ≠ s.reg .acc then target else effectReg s 5 q) s.byte

/-- PSH_LIT. Its encoding is its opcode and the literal's two bytes. With `sp` in range it completes: the slot at the
old `sp` holds the literal, `sp` is 2 lower modulo `2^16`, and nothing else but the advancing `ip` changes. With `sp`
out of range it faults at the store and `sp` is not decremented; an operand fetch outside memory faults at the fetch
(44_stack.md R160; that a fault is a next state whose status is `Faulted` is 60_exceptions.md R181, decision D6:
assumption log 6; what else it leaves is R182: assumption log 22; the byte order, of the literal's field and of the
slot, is decision D1: assumption log 10; that the operand is fetched before the effect is decision D5: assumption log
11). The fields of the fault record are R180, decision D18: assumption log 16. -/
def Obligations.PshLitPushesTheLiteral : Prop :=
  ∀ (s : State) (lit : Word),
    (encode s.cfg.opcodes (.pshLit lit) = [s.cfg.opcodes.pshLit, lit.extractLsb' 8 8, lit.extractLsb' 0 8]) ∧
    (Memory.wf s.mem → (s.reg .sp).toNat + 2 ≤ s.cfg.memLen → ∃ t, exec (.pshLit lit) s = .next t ∧
      Becomes s t (fun q => if q = .sp then s.reg .sp - 2 else effectReg s 3 q)
        (storedBytes s (s.reg .sp).toNat lit)) ∧
    (s.cfg.memLen < (s.reg .sp).toNat + 2 → ∃ t, exec (.pshLit lit) s = .next t ∧
      t.status = .faulted (.outOfBounds .memory (s.reg .sp).toNat 2 (s.reg .ip)) ∧ t.reg .sp = s.reg .sp) ∧
    (s.cfg.wf → s.status = .running → (s.reg .ip).toNat < s.cfg.memLen →
      s.byte (s.reg .ip).toNat = s.cfg.opcodes.pshLit → s.cfg.memLen < (s.reg .ip + 1).toNat + 2 →
      ∃ t, step s = .next t ∧
        t.status = .faulted (.outOfBounds .memory (s.reg .ip + 1).toNat 2 (s.reg .ip)))

/-- PSH_REG with its source in the bank and `sp` in range completes: the slot at the old `sp` holds the source's value
from before the decrement, `sp` is 2 lower modulo `2^16`, and nothing else but the advancing `ip` changes
(44_stack.md R163; a source `ip` reads as the address past the instruction, decision D5: assumption log 11;
the byte order is decision D1: assumption log 10). -/
def Obligations.PshRegPushesTheSource : Prop :=
  ∀ (s : State) (a : RegIx) (p : RegName), Memory.wf s.mem → regOf a = some p →
    (s.reg .sp).toNat + 2 ≤ s.cfg.memLen →
    ∃ t, exec (.pshReg a) s = .next t ∧
      Becomes s t (fun q => if q = .sp then s.reg .sp - 2 else effectReg s 2 q)
        (storedBytes s (s.reg .sp).toNat (effectReg s 2 p))

/-- POP with the pop address `(sp + 2) mod 2^16` in range and its destination in the bank completes: `sp` holds the pop
address, the destination, if it is not `sp`, the big-endian word there, and nothing else changes: the popped bytes stay
in memory (44_stack.md R166, R169; that the address wraps is the spec's decision D8: R168, assumption log 13; the
byte order is decision D1: assumption log 10). -/
def Obligations.PopLoadsAndRaisesSp : Prop :=
  ∀ (s : State) (d : RegIx) (r : RegName), (s.reg .sp + 2).toNat + 2 ≤ s.cfg.memLen → regOf d = some r →
    ∃ t, exec (.pop d) s = .next t ∧
      Becomes s t (fun q => if q = .sp then s.reg .sp + 2
        else if q = r then wordAt s (s.reg .sp + 2).toNat else effectReg s 2 q) s.byte

/-- Every instruction answers a next state, from every state, with the status of the first failing access of its effect,
in statement order, or the status it found if none fails (60_exceptions.md R185, R186; the order is the spec's decision
D7: assumption log 12; a fault is a next state: assumption log 6; that the pop address wraps is decision D8: assumption
log 13). The fields of the fault record are R180, decision D18: assumption log 16. -/
def Obligations.EffectFaultsAsTheTableSays : Prop :=
  ∀ (i : Instr) (s : State),
    ∃ t, exec i s = .next t ∧ t.status = statusAfter s (firstFault (effectFaults i s))

/-- No instruction changes a register other than `ip` and those it writes: no implicit use of `fp`, no base register
update, `acc` written implicitly by ADD_REG_REG only and `sp` by the stack instructions only (10_state.md R28, R29;
41_data_movement.md R128). It holds of a faulting instruction too: what a fault leaves is not those rules but
60_exceptions.md R182, decision D6: assumption log 22; the fault is a next state: assumption log 6. -/
def Obligations.OnlyTheWrittenRegistersChange : Prop :=
  ∀ (i : Instr) (s t : State) (r : RegName), exec i s = .next t → r ≠ .ip → r ∉ writtenRegs i → t.reg r = s.reg r

/-- No instruction changes a byte of memory but the two at the address its effect stores to; six of the nine change none
(20_memory.md R57, R58). It holds of a faulting instruction too, whose state after the fault R55 leaves unspecified:
that is 60_exceptions.md R182, decision D6: assumption log 22, and byte `L - 1` after a faulting store there is a free
value: assumption log 8; the fault is a next state: assumption log 6. -/
def Obligations.OnlyTheStoredBytesChange : Prop :=
  ∀ (i : Instr) (s t : State), Memory.wf s.mem → exec i s = .next t →
    (storeAddress i s = none → ∀ b, t.byte b = s.byte b) ∧
    (∀ a, storeAddress i s = some a → ∀ b, b ≠ a.toNat → b ≠ a.toNat + 1 → t.byte b = s.byte b)

/-- Writing `ip` through raw index 0 transfers control, for the four instructions with a destination register;
ADD_REG_REG cannot write `ip`; and reading `ip` as a source gives the address of the next instruction (43_control.md
R152, derived by the spec from its decision D5: assumption log 11; that the pop address is taken modulo `2^16` is R168,
decision D8: assumption log 13; the byte order is decision D1: assumption log 10). -/
def Obligations.RawIndexZeroIsTheProgramCounter : Prop :=
  ∀ s : State,
    (∀ lit, ∃ t, exec (.movLitReg lit 0) s = .next t ∧ t.status = s.status ∧ t.reg .ip = lit) ∧
    (∀ a p, regOf a = some p →
      ∃ t, exec (.movRegReg a 0) s = .next t ∧ t.status = s.status ∧ t.reg .ip = effectReg s 3 p) ∧
    (∀ addr : Word, addr.toNat + 2 ≤ s.cfg.memLen →
      ∃ t, exec (.movMemReg addr 0) s = .next t ∧ t.status = s.status ∧ t.reg .ip = wordAt s addr.toNat) ∧
    ((s.reg .sp + 2).toNat + 2 ≤ s.cfg.memLen →
      ∃ t, exec (.pop 0) s = .next t ∧ t.status = s.status ∧ t.reg .ip = wordAt s (s.reg .sp + 2).toNat ∧
        t.reg .sp = s.reg .sp + 2) ∧
    (∀ a b p q, regOf a = some p → regOf b = some q →
      ∃ t, exec (.addRegReg a b) s = .next t ∧ t.reg .ip = s.reg .ip + 3) ∧
    (∀ d r, regOf d = some r → ∃ t, exec (.movRegReg 0 d) s = .next t ∧ t.reg r = s.reg .ip + 3) ∧
    (Memory.wf s.mem →
      (∀ addr : Word, addr.toNat + 2 ≤ s.cfg.memLen →
        ∃ t, exec (.movRegMem 0 addr) s = .next t ∧ wordAt t addr.toNat = s.reg .ip + 4) ∧
      ((s.reg .sp).toNat + 2 ≤ s.cfg.memLen →
        ∃ t, exec (.pshReg 0) s = .next t ∧ wordAt t (s.reg .sp).toNat = s.reg .ip + 2))

/-- A jump target is stored in `ip` unchecked; if it is outside memory the next step raises `OutOfBounds(Memory, t, 1)`
(43_control.md R151, derived by the spec; the fault is a next state: assumption log 6). The fields of the fault record
are R180, decision D18: assumption log 16. -/
def Obligations.JumpTargetIsCheckedByTheNextStep : Prop :=
  ∀ (s : State) (lit target : Word), s.status = .running → lit ≠ s.reg .acc →
    ∃ t, exec (.jmpNotEq lit target) s = .next t ∧ t.status = .running ∧ t.reg .ip = target ∧
      (s.cfg.memLen ≤ target.toNat →
        ∃ u, step t = .next u ∧ u.status = .faulted (.outOfBounds .memory target.toNat 1 target))

/-- A JMP_NOT_EQ in memory whose target is itself and whose literal differs from `acc` runs forever: every number of
steps leaves the state as it is (70_reset_and_hazards.md R221, derived by the spec; 43_control.md R150; the byte order
of the fields is 30_encoding.md R82, decision D1: assumption log 10). -/
def Obligations.SelfJumpRunsForever : Prop :=
  ∀ (s : State) (lit : Word), s.cfg.wf → s.status = .running → lit ≠ s.reg .acc →
    (s.reg .ip).toNat + 5 ≤ s.cfg.memLen →
    bytesAt s (s.reg .ip) 5 = encode s.cfg.opcodes (.jmpNotEq lit (s.reg .ip)) →
    ∀ n, core.run n s = .next s

/-! ### The stack -/

/-- The push decrement wraps: a push, PSH_LIT or PSH_REG, at `sp = s` in range stores at `s` and leaves `(s - 2) mod
2^16`, so `0xFFFE` for 0 and `0xFFFF` for 1. The next push is then at `0xFFFE`, which completes exactly when `L =
0x10000` and overwrites the top two bytes, or at `0xFFFF`, which always faults: there is no separate stack limit
(44_stack.md R161). PSH_REG of `ip` pushes the address of the next instruction (decision D5: assumption log 11), the
fault is a next state (assumption log 6), and the byte order is decision D1 (assumption log 10). A PSH_REG whose source
is outside the bank pushes no value: EffectFaultsAsTheTableSays says how it faults. The fields of the fault record are
R180, decision D18: assumption log 16. -/
def Obligations.PushDecrementWraps : Prop :=
  ∀ (s : State) (i : Instr) (v : Word), s.wf → s.status = .running → pushedValue i s = some v →
    (s.reg .sp).toNat + 2 ≤ s.cfg.memLen →
    ∃ t, exec i s = .next t ∧ t.status = .running ∧ wordAt t (s.reg .sp).toNat = v ∧ t.reg .sp = s.reg .sp - 2 ∧
      (s.reg .sp = 0 → t.reg .sp = 0xFFFE) ∧ (s.reg .sp = 1 → t.reg .sp = 0xFFFF) ∧
      ∀ (j : Instr) (w : Word), pushedValue j t = some w → ∃ u, exec j t = .next u ∧
        (t.reg .sp = 0xFFFE →
          (u.status = .running ↔ s.cfg.memLen = 0x10000) ∧ (s.cfg.memLen = 0x10000 → wordAt u 0xFFFE = w)) ∧
        (t.reg .sp = 0xFFFF → u.status = .faulted (.outOfBounds .memory 0xFFFF 2 (t.reg .ip)))

/-- `PSH_REG sp` stores the `sp` from before the decrement at the address it names; `PSH_REG ip` stores the address of
the next instruction; `PSH_REG fp` stores `fp` (44_stack.md R164, derived by the spec from its decision D5: assumption
log 11; the byte order is decision D1: assumption log 10). -/
def Obligations.PshRegReadsBeforeTheDecrement : Prop :=
  ∀ s : State, Memory.wf s.mem → (s.reg .sp).toNat + 2 ≤ s.cfg.memLen →
    (∃ t, exec (.pshReg 10) s = .next t ∧ wordAt t (s.reg .sp).toNat = s.reg .sp ∧ t.reg .sp = s.reg .sp - 2) ∧
    (∃ t, exec (.pshReg 0) s = .next t ∧ wordAt t (s.reg .sp).toNat = s.reg .ip + 2) ∧
    (∃ t, exec (.pshReg 11) s = .next t ∧ wordAt t (s.reg .sp).toNat = s.reg .fp ∧ t.reg .fp = s.reg .fp)

/-- `POP sp` leaves `(sp + 2) mod 2^16` in `sp`, and the loaded value is thrown away: no register but `sp` and the
advancing `ip` changes (44_stack.md R167, derived by the spec; the wrap is its decision D8: assumption log 13). -/
def Obligations.PopSpThrowsTheValueAway : Prop :=
  ∀ s : State, (s.reg .sp + 2).toNat + 2 ≤ s.cfg.memLen →
    ∃ t, exec (.pop 10) s = .next t ∧
      Becomes s t (fun q => if q = .sp then s.reg .sp + 2 else effectReg s 2 q) s.byte

/-- PSH_LIT `V` and then POP `R`, from a state with `sp <= L - 2`: neither faults, and `sp` returns to its value; `R`,
if it is not `sp`, holds `V`. The cases `sp` in 0, 1, where the push wraps, are included (44_stack.md R172, derived by
the spec from its decision D8: assumption log 13). -/
def Obligations.PushThenPopRoundTrip : Prop :=
  ∀ (s : State) (v : Word) (d : RegIx) (r : RegName), s.wf → s.status = .running → regOf d = some r →
    (s.reg .sp).toNat ≤ s.cfg.memLen - 2 →
    ∃ t u, exec (.pshLit v) s = .next t ∧ t.status = .running ∧ exec (.pop d) t = .next u ∧ u.status = .running ∧
      u.reg .sp = s.reg .sp ∧ (r ≠ .sp → u.reg r = v)

/-! ### Whole-machine rules -/

/-- Every step keeps the state well formed: the parameters in the bounds of 00_scope.md R6, memory in its canonical form
and inside the buffer of `L` bytes (20_memory.md R50). -/
def Obligations.StepKeepsTheStateWellFormed : Prop :=
  ∀ s t : State, s.wf → step s = .next t → t.wf

/-- The state after reset is well formed, and so is every construction over a well-formed configuration and memory. The
configuration and memory of State.reset are the model's choices (assumption logs 2 to 5). -/
def Obligations.ResetStateIsWellFormed : Prop :=
  State.reset.wf ∧
  ∀ (c : Config) (m : Memory), c.wf → Memory.wf m → Memory.within c.memLen m → (State.construct c m).wf

/-- Every run, of any host operations in any order, keeps the state well formed (70_reset_and_hazards.md R220;
20_memory.md R50). An access of the driver out of range changes no state: the model's choice, assumption log 17. -/
def Obligations.EveryRunKeepsTheStateWellFormed : Prop :=
  ∀ (ops : List HostOp) (s : State), s.wf → (performAll ops s).1.wf

/-- `L`, OPCODE and the policy do not change for the life of an instance, whatever the host does
(70_reset_and_hazards.md R213; 10_state.md R34); that the state carries them is the model's choice: assumption log 1. -/
def Obligations.ConfigurationNeverChanges : Prop :=
  ∀ (ops : List HostOp) (s : State), (performAll ops s).1.cfg = s.cfg

/-- A `Faulted` instance never runs again and keeps its fault, whatever the host does: nothing sets the status back to
`Running` but a new construction (10_state.md R30; 60_exceptions.md R183, decisions D6 and D21 of the spec: assumption
log 6; that setRegister does not revive it is R38, decision D12). An access of the driver out of range changes no state:
the model's choice, assumption log 17. -/
def Obligations.FaultedInstanceStaysFaulted : Prop :=
  ∀ (ops : List HostOp) (s : State) (f : Fault), s.status = .faulted f → (performAll ops s).1.status = .faulted f

/-- The status of an instance changes only in a step: no host operation but `step()` changes it, and the host calls that
only read leave the whole state as it is (10_state.md R30, R35, R36, R38, R40; 60_exceptions.md R184, R193, 20_memory.md
R65, decisions D6 and D12 of the spec: assumption log 6). That a dump out of range changes no state is decision D19, and
that a read8, read16, write8 or write16 out of range changes none is the model's choice: assumption log 17. -/
def Obligations.OnlyAStepChangesTheStatus : Prop :=
  ∀ (op : HostOp) (s : State),
    (op ≠ .step → (perform op s).1.status = s.status) ∧
    ((∃ n, op = .getRegister n) ∨ (∃ a, op = .read8 a) ∨ (∃ a, op = .read16 a) ∨ (∃ a n, op = .dump a n) ∨
      op = .registers → (perform op s).1 = s)

/-! ### Reset and the host -/

/-- Right after construction over a buffer of length `L`: `sp` and `fp` read `L - 2`, every other register reads 0, the
status is `Running` (70_reset_and_hazards.md R214; 10_state.md R21). -/
def Obligations.ConstructionLeavesTheResetValues : Prop :=
  ∀ (c : Config) (m : Memory), c.wf →
    (∃ v, getRegister "sp" (State.construct c m) = .ok v ∧ v.toNat = c.memLen - 2) ∧
    (∃ v, getRegister "fp" (State.construct c m) = .ok v ∧ v.toNat = c.memLen - 2) ∧
    (∀ name, name ∈ ["ip", "acc", "r1", "r2", "r3", "r4", "r5", "r6", "r7", "r8"] →
      getRegister name (State.construct c m) = .ok 0) ∧
    (State.construct c m).status = .running

/-- For every valid name and every integer `v`, `setRegister(n, v)` followed by `getRegister(n)` returns `v mod 2^16`
(10_state.md R37). It holds of a `Faulted` instance too, where R38 calls what getRegister returns unspecified: that such
an instance reads back what was written is DEDUCED: assumption log 9. -/
def Obligations.SetRegisterThenGetRegister : Prop :=
  ∀ (name : String) (v : Int) (s : State),
    name ∈ ["ip", "acc", "r1", "r2", "r3", "r4", "r5", "r6", "r7", "r8", "sp", "fp"] →
    ∃ t w, setRegister name v s = .ok t ∧ getRegister name t = .ok w ∧ (w.toNat : Int) = v % 65536

/-- `setRegister` accepts exactly the twelve names: on success it writes `value mod 2^16` to the named register and
changes nothing else, the status included; on failure it raises `InvalidRegisterName(name)` and changes no state
(10_state.md R36; that every other string is refused, the empty one and other cases of the letters included, is R35, the
spec's decision D15: assumption log 16). -/
def Obligations.SetRegisterWritesOnlyTheNamedRegister : Prop :=
  ∀ (name : String) (v : Int) (s : State),
    (∀ r, (name, r) ∈ namedRegisters → ∃ t, setRegister name v s = .ok t ∧
      Becomes s t (fun q => if q = r then BitVec.ofInt 16 v else s.reg q) s.byte) ∧
    ((∀ r, (name, r) ∉ namedRegisters) → setRegister name v s = .error (.invalidRegisterName name) ∧
      perform (.setRegister name v) s = (s, .error (.invalidRegisterName name)))

/-- `getRegister` returns the value of the named register for exactly the twelve names `ip`, `acc`, `r1` to `r8`, `sp`,
`fp`, and fails with `InvalidRegisterName` for every other string, the empty string included; it changes no state
(10_state.md R35, exact and case-sensitive by the spec's decision D15: assumption log 16; on a `Faulted` instance too:
assumption log 9). -/
def Obligations.GetRegisterAcceptsExactlyTheTwelveNames : Prop :=
  ∀ (name : String) (s : State),
    (∀ r, (name, r) ∈ namedRegisters → getRegister name s = .ok (s.reg r)) ∧
    ((∀ r, (name, r) ∉ namedRegisters) →
      getRegister name s = .error (.invalidRegisterName name)) ∧
    (perform (.getRegister name) s).1 = s

/-- The byte dump returns the bytes of memory from the address on, an error if the request reaches outside `0 .. L-1`,
and changes nothing; the listing gives every named register and its value (10_state.md R40, decision D19: assumption log
17; what is listed of a `Faulted` instance: assumption log 9). -/
def Obligations.InspectionReadsTheState : Prop :=
  ∀ (s : State) (a n : Nat), 0 < n →
    (a + n ≤ s.cfg.memLen → ∃ l, perform (.dump a n) s = (s, .bytes l) ∧ l.length = n ∧
      ∀ k, k < n → l[k]? = some (s.byte (a + k))) ∧
    (s.cfg.memLen < a + n → perform (.dump a n) s = (s, .error (.outOfRange a n))) ∧
    (∃ l, perform .registers s = (s, .listing l) ∧ l.length = 12 ∧ ∀ p ∈ namedRegisters, (p.1, s.reg p.2) ∈ l)

/-- The stop policy with end address `E` and at most `N` steps, from any state: the run ends normally exactly in the
first state that is `Running` with `ip = E`, if at most `N` steps reach it; in error exactly in a `Faulted` state that
at most `N` steps reach, or after exactly `N` steps in a `Running` state with `ip` other than `E`, no earlier state
having been `Running` with `ip = E`; and in no other way (70_reset_and_hazards.md R222, the spec's decision D9; what a
run that reaches `E` in exactly `N` steps is, is the model's choice: assumption log 18). -/
def Obligations.StopPolicyEndsTheRun : Prop :=
  ∀ (e : Word) (n : Nat) (s : State),
    (∀ t, runTo e n s = .normal t ↔ t.status = .running ∧ t.reg .ip = e ∧
      ∃ k, k ≤ n ∧ core.run k s = .next t ∧ NotEndedBefore e k s) ∧
    (∀ f t, runTo e n s = .faulted f t ↔ t.status = .faulted f ∧
      ∃ k, k ≤ n ∧ core.run k s = .next t ∧ NotEndedBefore e k s) ∧
    (∀ t, runTo e n s = .exhausted t ↔ t.status = .running ∧ core.run n s = .next t ∧ NotEndedBefore e (n + 1) s) ∧
    (∀ t, runTo e n s ≠ .noTransition t)

/-- The driver's reads and writes of memory between steps. A read of a byte or a big-endian word inside the buffer
replies it and changes nothing; a write of one stores exactly its bytes, replies ok, and changes nothing else; one that
reaches outside the buffer replies an error and changes nothing (60_exceptions.md R193, 20_memory.md R65, the spec's
decision D12; the byte order is decision D1: assumption log 10; the reply out of range is the model's choice: assumption
log 17). -/
def Obligations.DriverReadsAndWritesMemory : Prop :=
  ∀ (s : State) (a : Nat) (b : Byte) (v : Word), Memory.wf s.mem →
    (a + 1 ≤ s.cfg.memLen → perform (.read8 a) s = (s, .byte (s.byte a)) ∧
      ∃ t, perform (.write8 a b) s = (t, .ok) ∧ Becomes s t s.reg (fun x => if x = a then b else s.byte x)) ∧
    (s.cfg.memLen < a + 1 → perform (.read8 a) s = (s, .error (.outOfRange a 1)) ∧
      perform (.write8 a b) s = (s, .error (.outOfRange a 1))) ∧
    (a + 2 ≤ s.cfg.memLen → perform (.read16 a) s = (s, .word (wordAt s a)) ∧
      ∃ t, perform (.write16 a v) s = (t, .ok) ∧ Becomes s t s.reg (storedBytes s a v)) ∧
    (s.cfg.memLen < a + 2 → perform (.read16 a) s = (s, .error (.outOfRange a 2)) ∧
      perform (.write16 a v) s = (s, .error (.outOfRange a 2)))

/-- What the host gets back. A step leaves the state it answers and replies ok, or the fault its status then holds; a
step of a `Faulted` instance is refused with the stored fault and changes nothing; getRegister replies its value or its
error; a setRegister that succeeds leaves the state it answers and replies ok (SetRegisterWritesOnlyTheNamedRegister
says what one that fails does); and host operations happen one after another, each on the state the one before it left
(60_exceptions.md R193; 70_reset_and_hazards.md R220; 20_memory.md R62, the spec's decision D13; that a fault is a next
state is DEDUCED, and that a step of a `Faulted` instance is refused and changes nothing is 10_state.md R39, decision
D21 of the spec: assumption log 6). -/
def Obligations.HostOperationsHappenInOrder : Prop :=
  (∀ s t : State, step s = .next t → t.status = .running → perform .step s = (t, .ok)) ∧
  (∀ (s t : State) (f : Fault), step s = .next t → t.status = .faulted f → perform .step s = (t, .fault f)) ∧
  (∀ (s : State) (f : Fault), s.status = .faulted f → perform .step s = (s, .refused (.instanceFaulted f))) ∧
  (∀ (s : State) (name : String) (w : Word), getRegister name s = .ok w →
    perform (.getRegister name) s = (s, .word w)) ∧
  (∀ (s : State) (name : String) (e : HostError), getRegister name s = .error e →
    perform (.getRegister name) s = (s, .error e)) ∧
  (∀ (s t : State) (name : String) (v : Int), setRegister name v s = .ok t →
    perform (.setRegister name v) s = (t, .ok)) ∧
  (∀ s : State, performAll [] s = (s, [])) ∧
  (∀ (op : HostOp) (ops : List HostOp) (s t u : State) (p : HostReply) (ps : List HostReply),
    perform op s = (t, p) → performAll ops t = (u, ps) → performAll (op :: ops) s = (u, p :: ps))

/-- An 8-bit access at byte offset `a`, read or write, is in range exactly if `0 <= a <= L - 1` (20_memory.md R53). -/
def Obligations.EightBitAccessIsInRangeInsideTheBuffer : Prop :=
  ∀ (s : State) (a : Nat) (v : Byte), s.cfg.wf →
    ((∃ b, memRead8 s a = .ok b) ↔ 0 ≤ a ∧ a ≤ s.cfg.memLen - 1) ∧
    ((∃ t, memWrite8 s a v = .ok t) ↔ 0 ≤ a ∧ a ≤ s.cfg.memLen - 1)
end

