-- ==== Sys2Proof/Laws/Memory.lean ====
section
/-! SUPPORT. The laws of memory: what a write leaves at each address, and that every memory operation keeps the canonical
form and the bounds of the buffer. -/

namespace Sys2Proof.Machine

/-- Read after write, at every address (20_memory.md R58). -/
theorem memGet_memSet (m : Memory) (a b : Nat) (v : Byte) (h : Memory.wf m) :
    memGet (memSet m a v) b = if b = a then v else memGet m b := by
  induction m with
  | nil => by_cases hv : v = unlistedByte <;> simp [memSet, memGet, hv]
  | cons c m ih =>
    obtain ⟨c1, c2⟩ := c
    have hm : Memory.wf m := ⟨(List.pairwise_cons.1 h.1).2, fun d hd => h.2 d (List.mem_cons_of_mem _ hd)⟩
    have unlisted : ∀ d, (∀ e ∈ m, d < e.1) → memGet m d = unlistedByte := by
      clear ih h hm
      intro d
      induction m with
      | nil => intro _; rfl
      | cons e m ih =>
        intro hd
        have h1 : d < e.1 := hd e (by simp)
        have h2 : d ≠ e.1 := by omega
        simp only [memGet, h2, if_false]
        exact ih (fun f hf => hd f (by simp [hf]))
    have hc : memGet m c1 = unlistedByte := unlisted c1 (fun e he => (List.pairwise_cons.1 h.1).1 e he)
    have hlt : a < c1 → memGet m a = unlistedByte := fun hlt =>
      unlisted a (fun e he => by have := (List.pairwise_cons.1 h.1).1 e he; simp at this; omega)
    have ih := ih hm
    unfold memSet
    split
    · rename_i hac
      have := hlt hac
      split
      all_goals simp only [memGet]
      all_goals (repeat' split) <;> simp_all
    · split
      · subst_vars
        split <;> simp only [memGet] <;> (repeat' split) <;> simp_all
      · simp only [memGet, ih]
        (repeat' split) <;> simp_all

theorem mem_memSet {m : Memory} {a : Nat} {v : Byte} {c : Host.Cell} (h : c ∈ memSet m a v) :
    c ∈ m ∨ (c = (a, v) ∧ v ≠ unlistedByte) := by
  induction m with
  | nil => simp only [memSet] at h; split at h <;> simp_all
  | cons d m ih =>
    simp only [memSet] at h
    (repeat' split at h) <;> simp_all <;> tauto

/-- A write keeps the canonical form. -/
theorem memSet_wf {m : Memory} (a : Nat) (v : Byte) (h : Memory.wf m) : Memory.wf (memSet m a v) := by
  refine ⟨?_, fun c hc => ?_⟩
  · induction m with
    | nil => simp only [memSet]; split <;> simp
    | cons d m ih =>
      have hp := List.pairwise_cons.1 h.1
      have hm : Memory.wf m := ⟨hp.2, fun e he => h.2 e (List.mem_cons_of_mem _ he)⟩
      simp only [memSet]
      split
      · split
        · exact h.1
        · refine List.pairwise_cons.2 ⟨fun e he => ?_, h.1⟩
          rcases List.mem_cons.1 he with rfl | he
          · assumption
          · have := hp.1 e he; simp at *; omega
      · split
        · split
          · exact hp.2
          · refine List.pairwise_cons.2 ⟨fun e he => ?_, hp.2⟩
            have := hp.1 e he; simp at *; omega
        · refine List.pairwise_cons.2 ⟨fun e he => ?_, ih hm⟩
          rcases mem_memSet he with he | ⟨rfl, _⟩
          · exact hp.1 e he
          · simp at *; omega
  · rcases mem_memSet hc with hc | ⟨rfl, hv⟩
    · exact h.2 c hc
    · exact hv

/-- A write inside the buffer stays inside the buffer. -/
theorem memSet_within {m : Memory} {len a : Nat} (v : Byte) (h : Memory.within len m) (ha : a < len) :
    Memory.within len (memSet m a v) := by
  intro c hc
  rcases mem_memSet hc with hc | ⟨rfl, _⟩
  · exact h c hc
  · exact ha

theorem memSet16_wf {m : Memory} (a : Nat) (v : Word) (h : Memory.wf m) : Memory.wf (memSet16 m a v) :=
  memSet_wf _ _ (memSet_wf _ _ h)

theorem memSet16_within {m : Memory} {len a : Nat} (v : Word) (h : Memory.within len m) (ha : a + 2 ≤ len) :
    Memory.within len (memSet16 m a v) :=
  memSet_within _ (memSet_within _ h (by omega)) (by omega)

/-- A 16-bit write, byte by byte (20_memory.md R52). -/
theorem memGet_memSet16 (m : Memory) (a b : Nat) (v : Word) (h : Memory.wf m) :
    memGet (memSet16 m a v) b = if b = a then hiByte v else if b = a + 1 then loByte v else memGet m b := by
  rw [memSet16, memGet_memSet _ _ _ _ (memSet_wf _ _ h), memGet_memSet _ _ _ _ h]
  by_cases h1 : b = a <;> by_cases h2 : b = a + 1 <;> simp_all

theorem memAfterFault_wf (e : Abort) {s : State} (h : Memory.wf s.mem) : Memory.wf (memAfterFault e s) := by
  unfold memAfterFault
  split
  · split
    · exact memSet_wf _ _ h
    · exact h
  · exact h

theorem memAfterFault_within (e : Abort) {s : State} (h : Memory.within s.cfg.memLen s.mem) :
    Memory.within s.cfg.memLen (memAfterFault e s) := by
  unfold memAfterFault
  split
  · split
    · rename_i ha
      exact memSet_within _ h (by simp [byteLength] at ha; omega)
    · exact h
  · exact h

/-- A fault that no store raised leaves memory as it was (60_exceptions.md R182). -/
theorem memAfterFault_of_not_write {e : Abort} {s : State} (h : ∀ a n, e ≠ .memory .write a n) :
    memAfterFault e s = s.mem := by
  unfold memAfterFault
  split
  · exact absurd rfl (h _ _)
  · rfl

/-- A faulting 16-bit store at `a` changes no byte but `a`, and that one only when `a` is `L - 1` (60_exceptions.md
R182). -/
theorem memGet_memAfterFault_store (s : State) (a b : Nat) (h : Memory.wf s.mem)
    (hb : b ≠ a ∨ a + 1 ≠ s.cfg.memLen) : memGet (memAfterFault (.memory .write a 2) s) b = memGet s.mem b := by
  simp only [memAfterFault]
  split
  · rw [memGet_memSet _ _ _ _ h]; simp_all
  · rfl

theorem placeBytes_wf (len : Nat) (l : List Byte) (a : Word) {m : Memory} (h : Memory.wf m) :
    Memory.wf (placeBytes len a l m) := by
  induction l generalizing a m with
  | nil => exact h
  | cons b l ih =>
    simp only [placeBytes]
    apply ih
    split
    · exact memSet_wf _ _ h
    · exact h

theorem placeBytes_within (len : Nat) (l : List Byte) (a : Word) {m : Memory} (h : Memory.within len m) :
    Memory.within len (placeBytes len a l m) := by
  induction l generalizing a m with
  | nil => exact h
  | cons b l ih =>
    simp only [placeBytes]
    apply ih
    split
    · exact memSet_within _ h (by assumption)
    · exact h

end Sys2Proof.Machine
end

