-- ==== Sys2Proof/Laws/State.lean ====
section
/-! SUPPORT. The small lemmas of the state: what each update leaves in each field. -/

namespace Sys2Proof.Machine

/-! ### The register bank -/

@[simp] theorem Regs.get_set (x : Regs) (r q : RegName) (v : Word) :
    (x.set r v).get q = if q = r then v else x.get q := by
  cases r <;> cases q <;> rfl

theorem Regs.ext_get {x y : Regs} (h : ∀ r, x.get r = y.get r) : x = y := by
  cases x; cases y
  have := h .ip; have := h .acc; have := h .r1; have := h .r2; have := h .r3; have := h .r4
  have := h .r5; have := h .r6; have := h .r7; have := h .r8; have := h .sp; have := h .fp
  simp_all [Regs.get]

/-! ### One register written -/

@[simp] theorem State.reg_setReg (s : State) (r q : RegName) (v : Word) :
    (s.setReg r v).reg q = if q = r then v else s.reg q := Regs.get_set _ _ _ _

@[simp] theorem State.setReg_cfg (s : State) (r : RegName) (v : Word) : (s.setReg r v).cfg = s.cfg := rfl
@[simp] theorem State.setReg_mem (s : State) (r : RegName) (v : Word) : (s.setReg r v).mem = s.mem := rfl
@[simp] theorem State.setReg_status (s : State) (r : RegName) (v : Word) : (s.setReg r v).status = s.status := rfl
@[simp] theorem State.setReg_draws (s : State) (r : RegName) (v : Word) : (s.setReg r v).draws = s.draws := rfl

/-! ### Memory written -/

@[simp] theorem State.reg_setMem (s : State) (m : Memory) (r : RegName) : (s.setMem m).reg r = s.reg r := rfl
@[simp] theorem State.setMem_cfg (s : State) (m : Memory) : (s.setMem m).cfg = s.cfg := rfl
@[simp] theorem State.setMem_mem (s : State) (m : Memory) : (s.setMem m).mem = m := rfl
@[simp] theorem State.setMem_regs (s : State) (m : Memory) : (s.setMem m).regs = s.regs := rfl
@[simp] theorem State.setMem_status (s : State) (m : Memory) : (s.setMem m).status = s.status := rfl
@[simp] theorem State.setMem_draws (s : State) (m : Memory) : (s.setMem m).draws = s.draws := rfl

/-! ### `ip` advanced -/

theorem stepUp_eq_add (v : Word) (n : Nat) : stepUp v n = v + BitVec.ofNat 16 n := by
  apply BitVec.eq_of_toNat_eq
  simp [stepUp]

@[simp] theorem advanceIp_cfg (n : Nat) (s : State) : (advanceIp n s).cfg = s.cfg := rfl
@[simp] theorem advanceIp_mem (n : Nat) (s : State) : (advanceIp n s).mem = s.mem := rfl
@[simp] theorem advanceIp_status (n : Nat) (s : State) : (advanceIp n s).status = s.status := rfl
@[simp] theorem advanceIp_draws (n : Nat) (s : State) : (advanceIp n s).draws = s.draws := rfl

@[simp] theorem advanceIp_reg (n : Nat) (s : State) (q : RegName) :
    (advanceIp n s).reg q = if q = .ip then s.reg .ip + BitVec.ofNat 16 n else s.reg q := by
  simp [advanceIp, stepUp_eq_add]

theorem advanceIp_advanceIp (m n : Nat) (s : State) : advanceIp n (advanceIp m s) = advanceIp (m + n) s := by
  have hv : s.reg .ip + BitVec.ofNat 16 m + BitVec.ofNat 16 n = s.reg .ip + BitVec.ofNat 16 (m + n) := by
    apply BitVec.eq_of_toNat_eq; simp; omega
  have hx : (s.regs.set .ip (stepUp (s.reg .ip) m)).set .ip (stepUp ((advanceIp m s).reg .ip) n)
      = s.regs.set .ip (stepUp (s.reg .ip) (m + n)) := by
    apply Regs.ext_get
    intro r
    simp only [Regs.get_set, advanceIp_reg, stepUp_eq_add, if_true]
    split <;> simp_all
  simp only [advanceIp, State.setReg] at *
  rw [hx]

/-! ### After a fault -/

@[simp] theorem takeFault_cfg (e : Abort) (s : State) : (takeFault e s).cfg = s.cfg := rfl
@[simp] theorem takeFault_mem (e : Abort) (s : State) : (takeFault e s).mem = memAfterFault e s := rfl
@[simp] theorem takeFault_draws (e : Abort) (s : State) : (takeFault e s).draws = s.draws + 1 := rfl

@[simp] theorem takeFault_status (e : Abort) (s : State) :
    (takeFault e s).status = .faulted (faultRecord (s.reg .ip) e) := rfl

/-- Every register but `ip` keeps its value (60_exceptions.md R182). -/
theorem takeFault_reg (e : Abort) (s : State) {r : RegName} (h : r ≠ .ip) : (takeFault e s).reg r = s.reg r := by
  show (s.regs.set .ip _).get r = s.regs.get r
  simp [h]

/-! ### Construction -/

@[simp] theorem construct_cfg (c : Config) (m : Memory) : (State.construct c m).cfg = c := rfl
@[simp] theorem construct_mem (c : Config) (m : Memory) : (State.construct c m).mem = m := rfl
@[simp] theorem construct_status (c : Config) (m : Memory) : (State.construct c m).status = .running := rfl
@[simp] theorem construct_draws (c : Config) (m : Memory) : (State.construct c m).draws = 0 := rfl

theorem construct_reg (c : Config) (m : Memory) (r : RegName) :
    (State.construct c m).reg r = if r = .sp ∨ r = .fp then BitVec.ofNat 16 (c.memLen - 2) else 0 := by
  cases r <;> rfl

end Sys2Proof.Machine
end

