-- ==== Sys2Proof/Laws/Ops.lean ====
section
/-! SUPPORT. What each shared operation can do, said once: if it answers, then exactly this holds. -/

namespace Sys2Proof.Machine

/-! ### The memory port -/

theorem memRead8_ok {s : State} {a : Nat} {b : Byte} :
    memRead8 s a = .ok b ↔ a + 1 ≤ s.cfg.memLen ∧ b = memGet s.mem a := by
  unfold memRead8 byteLength; split <;> simp_all [eq_comm]

theorem memRead8_error {s : State} {a : Nat} {e : Abort} :
    memRead8 s a = .error e ↔ s.cfg.memLen < a + 1 ∧ e = .memory .read a 1 := by
  unfold memRead8 byteLength; split <;> simp_all [eq_comm]

theorem memRead16_ok {s : State} {a : Nat} {v : Word} :
    memRead16 s a = .ok v ↔ a + 2 ≤ s.cfg.memLen ∧ v = memGet16 s.mem a := by
  unfold memRead16 byteLength; split <;> simp_all [eq_comm]

theorem memRead16_error {s : State} {a : Nat} {e : Abort} :
    memRead16 s a = .error e ↔ s.cfg.memLen < a + 2 ∧ e = .memory .read a 2 := by
  unfold memRead16 byteLength; split <;> simp_all [eq_comm]

theorem memWrite8_ok {s t : State} {a : Nat} {v : Byte} :
    memWrite8 s a v = .ok t ↔ a + 1 ≤ s.cfg.memLen ∧ t = s.setMem (memSet s.mem a v) := by
  unfold memWrite8 byteLength; split <;> simp_all [eq_comm]

theorem memWrite8_error {s : State} {a : Nat} {v : Byte} {e : Abort} :
    memWrite8 s a v = .error e ↔ s.cfg.memLen < a + 1 ∧ e = .memory .write a 1 := by
  unfold memWrite8 byteLength; split <;> simp_all [eq_comm]

theorem memWrite16_ok {s t : State} {a : Nat} {v : Word} :
    memWrite16 s a v = .ok t ↔ a + 2 ≤ s.cfg.memLen ∧ t = s.setMem (memSet16 s.mem a v) := by
  unfold memWrite16 byteLength; split <;> simp_all [eq_comm]

theorem memWrite16_error {s : State} {a : Nat} {v : Word} {e : Abort} :
    memWrite16 s a v = .error e ↔ s.cfg.memLen < a + 2 ∧ e = .memory .write a 2 := by
  unfold memWrite16 byteLength; split <;> simp_all [eq_comm]

/-! ### The operand forms -/

/-- A raw index selects no register exactly outside `0 .. 11` (10_state.md R25). -/
theorem regOf_none {i : RegIx} : regOf i = none ↔ 12 ≤ i.toNat := by
  simp [regOf, RegName.all]

theorem regOf_some_inBank {i : RegIx} {r : RegName} (h : regOf i = some r) : i.toNat < 12 := by
  by_contra hn
  rw [regOf_none.2 (by omega)] at h
  simp at h

theorem readReg_ok {i : RegIx} {s : State} {v : Word} :
    readReg i s = .ok v ↔ ∃ r, regOf i = some r ∧ v = s.reg r := by
  unfold readReg; cases regOf i <;> simp [eq_comm]

theorem readReg_error {i : RegIx} {s : State} {e : Abort} :
    readReg i s = .error e ↔ 12 ≤ i.toNat ∧ e = .register i := by
  rw [← regOf_none]; unfold readReg; cases regOf i <;> simp [eq_comm]

theorem writeReg_ok {i : RegIx} {v : Word} {s t : State} :
    writeReg i v s = .ok t ↔ ∃ r, regOf i = some r ∧ t = s.setReg r v := by
  unfold writeReg; cases regOf i <;> simp [eq_comm]

theorem writeReg_error {i : RegIx} {v : Word} {s : State} {e : Abort} :
    writeReg i v s = .error e ↔ 12 ≤ i.toNat ∧ e = .register i := by
  rw [← regOf_none]; unfold writeReg; cases regOf i <;> simp [eq_comm]

theorem loadWord_ok {a : Word} {s : State} {v : Word} :
    loadWord a s = .ok v ↔ a.toNat + 2 ≤ s.cfg.memLen ∧ v = memGet16 s.mem a.toNat := memRead16_ok

theorem loadWord_error {a : Word} {s : State} {e : Abort} :
    loadWord a s = .error e ↔ s.cfg.memLen < a.toNat + 2 ∧ e = .memory .read a.toNat 2 := memRead16_error

theorem storeWord_ok {a v : Word} {s t : State} :
    storeWord a v s = .ok t ↔ a.toNat + 2 ≤ s.cfg.memLen ∧ t = s.setMem (memSet16 s.mem a.toNat v) :=
  memWrite16_ok

theorem storeWord_error {a v : Word} {s : State} {e : Abort} :
    storeWord a v s = .error e ↔ s.cfg.memLen < a.toNat + 2 ∧ e = .memory .write a.toNat 2 := memWrite16_error

theorem pushWord_ok {v : Word} {s t : State} :
    pushWord v s = .ok t ↔ (s.reg .sp).toNat + 2 ≤ s.cfg.memLen ∧
      t = (s.setMem (memSet16 s.mem (s.reg .sp).toNat v)).setReg .sp (s.reg .sp - 2) := by
  unfold pushWord
  rcases h : storeWord (s.reg .sp) v s with e | u
  · have := storeWord_error.1 h
    simp [bind, Except.bind]; omega
  · obtain ⟨h1, rfl⟩ := storeWord_ok.1 h
    simp [bind, Except.bind, pure, Except.pure, h1, stepDown, eq_comm]

theorem pushWord_error {v : Word} {s : State} {e : Abort} :
    pushWord v s = .error e ↔ s.cfg.memLen < (s.reg .sp).toNat + 2 ∧ e = .memory .write (s.reg .sp).toNat 2 := by
  unfold pushWord
  rcases h : storeWord (s.reg .sp) v s with e' | u
  · obtain ⟨h1, rfl⟩ := storeWord_error.1 h
    simp [bind, Except.bind, h1, eq_comm]
  · obtain ⟨h1, rfl⟩ := storeWord_ok.1 h
    simp [bind, Except.bind, pure, Except.pure]; omega

theorem popAddress_eq (s : State) : popAddress s = s.reg .sp + 2 := stepUp_eq_add _ _

/-! ### The fetch primitives -/

theorem fetch8_ok {s t : State} {b : Byte} :
    fetch8 s = .ok (b, t) ↔ (s.reg .ip).toNat + 1 ≤ s.cfg.memLen ∧ b = memGet s.mem (s.reg .ip).toNat ∧
      t = advanceIp 1 s := by
  unfold fetch8
  rcases h : memRead8 s (s.reg .ip).toNat with e | v
  · have := memRead8_error.1 h
    simp [bind, Except.bind]; omega
  · obtain ⟨h1, rfl⟩ := memRead8_ok.1 h
    simp [bind, Except.bind, pure, Except.pure, h1, eq_comm]

theorem fetch8_error {s : State} {e : Abort} :
    fetch8 s = .error e ↔ s.cfg.memLen < (s.reg .ip).toNat + 1 ∧ e = .memory .read (s.reg .ip).toNat 1 := by
  unfold fetch8
  rcases h : memRead8 s (s.reg .ip).toNat with e' | v
  · obtain ⟨h1, rfl⟩ := memRead8_error.1 h
    simp [bind, Except.bind, h1, eq_comm]
  · have := memRead8_ok.1 h
    simp [bind, Except.bind, pure, Except.pure]; omega

theorem fetch16_ok {s t : State} {v : Word} :
    fetch16 s = .ok (v, t) ↔ (s.reg .ip).toNat + 2 ≤ s.cfg.memLen ∧ v = memGet16 s.mem (s.reg .ip).toNat ∧
      t = advanceIp 2 s := by
  unfold fetch16
  rcases h : memRead16 s (s.reg .ip).toNat with e | v
  · have := memRead16_error.1 h
    simp [bind, Except.bind]; omega
  · obtain ⟨h1, rfl⟩ := memRead16_ok.1 h
    simp [bind, Except.bind, pure, Except.pure, h1, eq_comm]

theorem fetch16_error {s : State} {e : Abort} :
    fetch16 s = .error e ↔ s.cfg.memLen < (s.reg .ip).toNat + 2 ∧ e = .memory .read (s.reg .ip).toNat 2 := by
  unfold fetch16
  rcases h : memRead16 s (s.reg .ip).toNat with e' | v
  · obtain ⟨h1, rfl⟩ := memRead16_error.1 h
    simp [bind, Except.bind, h1, eq_comm]
  · have := memRead16_ok.1 h
    simp [bind, Except.bind, pure, Except.pure]; omega

/-! ### The end of an instruction -/

@[simp] theorem complete_ok (s t : State) : complete s (.ok t) = .next t := rfl
@[simp] theorem complete_error (s : State) (e : Abort) : complete s (.error e) = .next (takeFault e s) := rfl

/-- An instruction always answers a next state: its effect's, or the one after its fault (40_cycle.md R108). -/
theorem complete_next {s t : State} {r : Except Abort State} :
    complete s r = .next t ↔ r = .ok t ∨ ∃ e, r = .error e ∧ t = takeFault e s := by
  cases r <;> simp [complete, eq_comm]

end Sys2Proof.Machine
end

