-- ==== Sys2Proof/Laws/PerInstr.lean ====
section
/-! SUPPORT. Facts about every instruction as syntax, one lemma per constructor. -/

namespace Sys2Proof.Laws.EncodedLength

/-- The encoding is as long as 30_encoding.md R84 says, and begins with the opcode of the mnemonic. -/
def Statement (i : Instr) : Prop :=
  ∀ m : OpcodeMap, (encode m i).length = instrLength i.mnemonic ∧ (encode m i).head? = some (m.code i.mnemonic)

theorem movLitReg (lit : Word) (dst : RegIx) : Statement (.movLitReg lit dst) := fun _ => ⟨rfl, rfl⟩
theorem movRegReg (src dst : RegIx) : Statement (.movRegReg src dst) := fun _ => ⟨rfl, rfl⟩
theorem movRegMem (src : RegIx) (addr : Word) : Statement (.movRegMem src addr) := fun _ => ⟨rfl, rfl⟩
theorem movMemReg (addr : Word) (dst : RegIx) : Statement (.movMemReg addr dst) := fun _ => ⟨rfl, rfl⟩
theorem addRegReg (fst snd : RegIx) : Statement (.addRegReg fst snd) := fun _ => ⟨rfl, rfl⟩
theorem jmpNotEq (lit target : Word) : Statement (.jmpNotEq lit target) := fun _ => ⟨rfl, rfl⟩
theorem pshLit (lit : Word) : Statement (.pshLit lit) := fun _ => ⟨rfl, rfl⟩
theorem pshReg (src : RegIx) : Statement (.pshReg src) := fun _ => ⟨rfl, rfl⟩
theorem pop (dst : RegIx) : Statement (.pop dst) := fun _ => ⟨rfl, rfl⟩

end Sys2Proof.Laws.EncodedLength

namespace Sys2Proof.Laws.OperandBytes

/-- The operand fields of 30_encoding.md R81, R85 fill the instruction: the widths sum to its length less the opcode. -/
def Statement (i : Instr) : Prop :=
  1 + (Machine.operandWidths i.mnemonic).sum = instrLength i.mnemonic

theorem movLitReg (lit : Word) (dst : RegIx) : Statement (.movLitReg lit dst) := rfl
theorem movRegReg (src dst : RegIx) : Statement (.movRegReg src dst) := rfl
theorem movRegMem (src : RegIx) (addr : Word) : Statement (.movRegMem src addr) := rfl
theorem movMemReg (addr : Word) (dst : RegIx) : Statement (.movMemReg addr dst) := rfl
theorem addRegReg (fst snd : RegIx) : Statement (.addRegReg fst snd) := rfl
theorem jmpNotEq (lit target : Word) : Statement (.jmpNotEq lit target) := rfl
theorem pshLit (lit : Word) : Statement (.pshLit lit) := rfl
theorem pshReg (src : RegIx) : Statement (.pshReg src) := rfl
theorem pop (dst : RegIx) : Statement (.pop dst) := rfl

end Sys2Proof.Laws.OperandBytes
end

