-- ==== Sys2Proof/Laws/Run.lean ====
section
/-! SUPPORT. Runs of the machine, one step at a time from either end, and the stop policy's end along a run. -/

namespace Sys2Proof.Machine

/-- A run whose first step answers goes on from the answer. -/
theorem run_next {n : Nat} {s t : State} (h : step s = .next t) : core.run (n + 1) s = core.run n t := by
  have h' : core.step s = .next t := h
  simp only [Host.Core.run, h']

/-- A run of at least one step that answers took a first step. -/
theorem run_first {n : Nat} {s t : State} (h : core.run (n + 1) s = .next t) :
    ∃ u, step s = .next u ∧ core.run n u = .next t := by
  rcases hs : core.step s with u | r | r
  · exact ⟨u, hs, by simpa only [Host.Core.run, hs] using h⟩
  · simp [Host.Core.run, hs] at h
  · simp [Host.Core.run, hs] at h

/-- A run followed by one more step. -/
theorem run_then_step {n : Nat} {s t u : State} (h : core.run n s = .next t) (hu : step t = .next u) :
    core.run (n + 1) s = .next u := by
  induction n generalizing s with
  | zero => cases h; rw [run_next hu]; rfl
  | succ n ih =>
    obtain ⟨v, h1, h2⟩ := run_first h
    rw [run_next h1]
    exact ih h2

/-- The only run of a `Faulted` instance that answers is the one of no steps (10_state.md R39). -/
theorem run_of_faulted {n : Nat} {s t : State} {f : Fault} (h : s.status = .faulted f) (hr : core.run n s = .next t) :
    n = 0 ∧ t = s := by
  cases n with
  | zero => cases hr; exact ⟨rfl, rfl⟩
  | succ n =>
    obtain ⟨u, hu, _⟩ := run_first hr
    simp [step, h] at hu

@[simp] theorem notEndedBefore_zero (e : Word) (s : State) : NotEndedBefore e 0 s := fun _ _ hj => absurd hj (by omega)

/-- A run has not ended in its first `k + 1` steps if it does not end at once and has not in the `k` steps after the
first. -/
theorem notEndedBefore_succ {e : Word} {k : Nat} {s t : State} (h : step s = .next t) :
    NotEndedBefore e (k + 1) s ↔ ¬ (s.status = .running ∧ s.reg .ip = e) ∧ NotEndedBefore e k t := by
  constructor
  · intro hs
    exact ⟨hs 0 s (by omega) rfl, fun j u hj hu => hs (j + 1) u (by omega) (by rw [run_next h]; exact hu)⟩
  · rintro ⟨h0, ht⟩ j u hj hu
    cases j with
    | zero => cases hu; exact h0
    | succ j => exact ht j u (by omega) (by rw [run_next h] at hu; exact hu)

end Sys2Proof.Machine
end

