-- ==== Sys2Proof/Tests/Slice0.lean ====
section
/-! SUPPORT. The model's own tests: the well-formedness checks refuse what they must, the spec's own words decode, the
vectors of 95_test_vectors.md come out (their ids stand in the comments), and each statement's hypotheses can be met. -/

namespace Sys2Proof.Tests

open Sys2Proof Sys2Proof.Machine

/-! ### Helpers -/

/-- A freshly constructed instance over `len` bytes of zeros. -/
def fresh (len : Nat) : State := State.construct { Config.reference with memLen := len } []

/-- The instance with bytes placed at an address. -/
def State.put (s : State) (a : Word) (l : List Byte) : State := s.setMem (placeBytes s.cfg.memLen a l s.mem)

/-- An instance over `len` bytes about to run the code placed at `a`. -/
def codeAt (len : Nat) (a : Word) (code : List Byte) : State := State.put ((fresh len).setReg .ip a) a code

/-- The same instance under the policy `fault`. -/
def hardened (s : State) : State := { s with cfg := { s.cfg with unknownPolicy := .fault } }

/-- One step, if it answers a next state. -/
def after (s : State) : Option State :=
  match step s with
  | .next t => some t
  | .fault _ => none
  | .refused _ => none

/-- The status one step leaves. -/
def statusOf (s : State) : Option Status := (after s).map (·.status)

/-- The fault `OOB(space, offset, width)` with its `pc`. -/
def oob (sp : Space) (o w : Nat) (pc : Word) : Option Status := some (.faulted (.outOfBounds sp o w pc))

/-! ### The well-formedness checks -/

theorem test_config_reference_wf : Config.reference.wf := by decide
theorem test_config_refuses_one_byte : ¬ ({ Config.reference with memLen := 1 } : Config).wf := by decide
theorem test_config_refuses_long_memory : ¬ ({ Config.reference with memLen := 0x10001 } : Config).wf := by decide

theorem test_opcodes_refuse_a_repeated_byte : ¬ ({ referenceOpcodes with pop := 0x10 } : OpcodeMap).wf := by decide

theorem test_config_refuses_repeated_opcodes :
    ¬ ({ Config.reference with opcodes := { referenceOpcodes with pop := 0x10 } } : Config).wf := by decide

theorem test_memory_refuses_unsorted : ¬ Memory.wf [(2, 1), (1, 1)] := by decide
theorem test_memory_refuses_a_repeat : ¬ Memory.wf [(1, 1), (1, 2)] := by decide
theorem test_memory_refuses_unlisted_value : ¬ Memory.wf [(1, 0)] := by decide
theorem test_memory_refuses_outside : ¬ Memory.within 2 [(2, 1)] := by decide

theorem test_regs_in_bank_accepts_eleven : RegIx.inBank 11 = true := by decide
theorem test_regs_in_bank_refuses_twelve : RegIx.inBank 12 = false := by decide
theorem test_movLitReg_out_of_bank : Instr.regsInBank (.movLitReg 1 12) = false := by decide
theorem test_movRegReg_src_out_of_bank : Instr.regsInBank (.movRegReg 12 2) = false := by decide
theorem test_movRegReg_dst_out_of_bank : Instr.regsInBank (.movRegReg 2 13) = false := by decide
theorem test_movRegMem_out_of_bank : Instr.regsInBank (.movRegMem 12 0) = false := by decide
theorem test_movMemReg_out_of_bank : Instr.regsInBank (.movMemReg 0 12) = false := by decide
theorem test_addRegReg_out_of_bank : Instr.regsInBank (.addRegReg 2 12) = false := by decide
theorem test_addRegReg_fst_out_of_bank : Instr.regsInBank (.addRegReg 12 2) = false := by decide
theorem test_pshReg_out_of_bank : Instr.regsInBank (.pshReg 12) = false := by decide
theorem test_pop_out_of_bank : Instr.regsInBank (.pop 255) = false := by decide

/-! ### Decoding: the words of the spec's examples, written out from its encodings -/

/-- R120, `10 00 05 02` is `MOV_LIT_REG 0x0005, r1`. -/
theorem test_decode_movLitReg : decodeTableWord 32 0x10000502 = some (.movLitReg 0x0005 2) := by decide
/-- R122, `11 01 02` is `MOV_REG_REG acc, r1`. -/
theorem test_decode_movRegReg : decodeTableWord 24 0x110102 = some (.movRegReg 1 2) := by decide
/-- R124, `12 02 01 00` is `MOV_REG_MEM r1, 0x0100`. -/
theorem test_decode_movRegMem : decodeTableWord 32 0x12020100 = some (.movRegMem 2 0x0100) := by decide
/-- R126, `13 01 00 04` is `MOV_MEM_REG 0x0100, r3`. -/
theorem test_decode_movMemReg : decodeTableWord 32 0x13010004 = some (.movMemReg 0x0100 4) := by decide
/-- R140, `14 02 03` is `ADD_REG_REG r1, r2`. -/
theorem test_decode_addRegReg : decodeTableWord 24 0x140203 = some (.addRegReg 2 3) := by decide
/-- R150, `15 00 03 00 04` is `JMP_NOT_EQ 0x0003, 0x0004`. -/
theorem test_decode_jmpNotEq : decodeTableWord 40 0x1500030004 = some (.jmpNotEq 3 4) := by decide
/-- R160, `17 12 34` is `PSH_LIT 0x1234`. -/
theorem test_decode_pshLit : decodeTableWord 24 0x171234 = some (.pshLit 0x1234) := by decide
/-- R163, `18 03` is `PSH_REG r2`. -/
theorem test_decode_pshReg : decodeTableWord 16 0x1803 = some (.pshReg 3) := by decide
/-- R166, `1A 02` is `POP r1`. -/
theorem test_decode_pop : decodeTableWord 16 0x1A02 = some (.pop 2) := by decide
/-- R87, the unassigned bytes 0x00, 0x16, 0x19 and 0xFF are refused. -/
theorem test_decode_unassigned :
    [0x00, 0x16, 0x19, 0xFF].map (decodeTableWord 8) = [none, none, none, none] := by decide
/-- Bytes that end inside an instruction are refused by its name. -/
theorem test_decode_truncated : decode referenceOpcodes [0x10, 0x00] = .error (.truncated .movLitReg) := by decide
/-- R90, the encoding and the notation of the spec's example. -/
theorem test_encode_and_asm : encode referenceOpcodes (.movLitReg 5 2) = [0x10, 0x00, 0x05, 0x02] ∧
    asm (.movLitReg 5 2) = "MOV_LIT_REG 0x0005, r1" ∧ asm (.pop 12) = "POP #12" := by decide

/-! ### Fetch and step -/

/-- V-C1: an instruction that wraps around the top of the address space. -/
theorem test_step_wraps :
    (after (State.put (((codeAt 0x10000 0xFFFF [0x18, 0x02]).setReg .r1 0x1111).setReg .sp 0x0100) 0x0100 [])).map
      (fun t => (t.byte 0x0100, t.byte 0x0101, t.reg .sp, t.reg .ip)) = some (0x11, 0x11, 0x00FE, 0x0001) := by decide
/-- V-C2: a word fetch at 0xFFFF is never split. -/
theorem test_step_word_fetch_at_top : statusOf (codeAt 0x10000 0xFFFE [0x10]) = oob .memory 0xFFFF 2 0xFFFE := by decide
/-- V-C3: the opcode fetch outside memory. -/
theorem test_step_opcode_fetch_outside : statusOf (codeAt 0x100 0x0100 []) = oob .memory 0x0100 1 0x0100 := by decide
/-- V-C4: an unassigned opcode under `nop`. -/
theorem test_step_unassigned_nop :
    (after (codeAt 0x10000 0x0020 [0x00])).map (fun t => (t.reg .ip, t.status)) = some (0x0021, .running) := by decide
/-- V-C5: the same under `fault`. -/
theorem test_step_unassigned_fault :
    statusOf (hardened (codeAt 0x10000 0x0020 [0x00])) = some (.faulted (.invalidOpcode 0x00 0x0020)) := by decide
/-- V-C6: an operand fetch outside memory. -/
theorem test_step_operand_fetch_outside : statusOf (codeAt 0x100 0x00FF [0x17]) = oob .memory 0x0100 2 0x00FF := by decide
/-- V-C8: a `Faulted` instance is refused and reports its fault. -/
theorem test_step_faulted_refused (f : Fault) :
    step { fresh 0x100 with status := .faulted f } = .refused (.instanceFaulted f) := rfl
/-- The first instruction after reset, placed as the host places it. -/
theorem test_withFetchWord_runs :
    step (State.reset.withFetchWord 32 0x10000502) = exec (.movLitReg 5 2) (State.reset.withFetchWord 32 0x10000502) := rfl

/-! ### The instructions: at most two vectors each -/

/-- V-M2. -/
theorem test_movLitReg_jump : (after (codeAt 0x10000 0 [0x10, 0x12, 0x34, 0x00])).map (·.reg .ip) = some 0x1234 := by decide
/-- V-M4. -/
theorem test_movLitReg_bad_index : statusOf (codeAt 0x10000 0 [0x10, 0x00, 0x01, 0xFF]) = oob .registerBank 510 2 0 := by
  decide
/-- V-M5. -/
theorem test_movRegReg_reads_ip :
    (after (codeAt 0x10000 0x40 [0x11, 0x00, 0x02])).map (fun t => (t.reg .r1, t.reg .ip)) = some (0x43, 0x43) := by decide
/-- V-M9. -/
theorem test_movRegReg_source_faults_first :
    statusOf (codeAt 0x10000 0 [0x11, 0x0C, 0x0D]) = oob .registerBank 24 2 0 := by decide
/-- V-M11. -/
theorem test_movRegMem_odd_address :
    (after ((codeAt 0x10000 0 [0x12, 0x02, 0x01, 0x01]).setReg .r1 0xABCD)).map
      (fun t => (t.byte 0x101, t.byte 0x102, t.reg .ip)) = some (0xAB, 0xCD, 4) := by decide
/-- V-M14. -/
theorem test_movRegMem_last_byte : statusOf (codeAt 0x100 0 [0x12, 0x02, 0x00, 0xFF]) = oob .memory 0xFF 2 0 := by decide
/-- V-M21: it reads its own opcode. -/
theorem test_movMemReg_own_bytes : (after (codeAt 0x10000 0 [0x13, 0x00, 0x00, 0x02])).map (·.reg .r1) = some 0x1300 := by
  decide
/-- V-M19: the load faults before the register. -/
theorem test_movMemReg_load_faults_first : statusOf (codeAt 0x10000 0 [0x13, 0xFF, 0xFF, 0x0C]) = oob .memory 0xFFFF 2 0 := by
  decide
/-- V-A2, and the sources unchanged. -/
theorem test_addRegReg_wraps :
    (after (((codeAt 0x10000 0 [0x14, 0x02, 0x03]).setReg .r1 0xFFFF).setReg .r2 0x0002)).map
      (fun t => (t.reg .acc, t.reg .r1, t.reg .r2)) = some (0x0001, 0xFFFF, 0x0002) := by decide
/-- V-A8. -/
theorem test_addRegReg_reads_ip :
    (after ((codeAt 0x10000 0x10 [0x14, 0x00, 0x02]).setReg .r1 1)).map (·.reg .acc) = some 0x0014 := by decide
/-- V-J1. -/
theorem test_jmpNotEq_equal :
    (after ((codeAt 0x10000 0 [0x15, 0x00, 0x42, 0x00, 0x30]).setReg .acc 0x42)).map (·.reg .ip) = some 0x0005 := by decide
/-- V-J3. -/
theorem test_jmpNotEq_different :
    (after ((codeAt 0x10000 0 [0x15, 0x00, 0x00, 0x00, 0x30]).setReg .acc 0xFFFF)).map (·.reg .ip) = some 0x0030 := by decide
/-- V-S3. -/
theorem test_pshLit_wraps :
    (after ((codeAt 0x10000 0x100 [0x17, 0xBE, 0xEF]).setReg .sp 1)).map (fun t => (t.byte 1, t.byte 2, t.reg .sp)) =
      some (0xBE, 0xEF, 0xFFFF) := by decide
/-- V-S4: `sp` is not decremented. -/
theorem test_pshLit_faults :
    (after ((codeAt 0x10000 0 [0x17, 0xBE, 0xEF]).setReg .sp 0xFFFF)).map (fun t => (t.reg .sp, some t.status)) =
      some (0xFFFF, oob .memory 0xFFFF 2 0) := by decide
/-- V-S6. -/
theorem test_pshReg_sp :
    (after (codeAt 0x10000 0 [0x18, 0x0A])).map (fun t => (t.byte 0xFFFE, t.byte 0xFFFF, t.reg .sp)) =
      some (0xFF, 0xFE, 0xFFFC) := by decide
/-- V-S8. -/
theorem test_pshReg_register_faults_first :
    statusOf ((codeAt 0x10000 0 [0x18, 0x0C]).setReg .sp 0xFFFF) = oob .registerBank 24 2 0 := by decide
/-- V-S10: the pop address wraps. -/
theorem test_pop_wraps :
    (after (codeAt 0x10000 0 [0x1A, 0x02])).map (fun t => (t.reg .r1, t.reg .sp, t.reg .ip)) = some (0x1A02, 0, 2) := by
  decide
/-- V-S12. -/
theorem test_pop_sp :
    (after (State.put ((codeAt 0x10000 0 [0x1A, 0x0A]).setReg .sp 0xFFFC) 0xFFFE [0x12, 0x34])).map (·.reg .sp) =
      some 0xFFFE := by decide

/-! ### The host -/

/-- S1 and V-H1: the value is taken modulo `2^16`. -/
theorem test_setRegister_truncates :
    (setRegister "r3" 0x12345 State.reset).map (getRegister "r3") = .ok (.ok 0x2345) ∧
    (setRegister "acc" 0x1FFFF State.reset).map (getRegister "acc") = .ok (.ok 0xFFFF) := by decide
/-- S2: unknown names, upper case and the empty string. -/
theorem test_getRegister_names :
    ["r9", "pc", "IP", ""].map registerNamed = [none, none, none, none] := by decide
/-- S3, `L = 2`. -/
theorem test_construct_two_bytes : getRegister "sp" (fresh 2) = .ok 0 ∧ getRegister "fp" (fresh 0x100) = .ok 0xFE := by
  decide
/-- R40: a dump inside memory, and one that reaches outside. -/
theorem test_dump :
    dumpBytes 0xFE 2 (codeAt 0x100 0xFE [7, 8]) = .ok [7, 8] ∧
    dumpBytes 0xFF 2 (fresh 0x100) = .error (.outOfRange 0xFF 2) := by decide

/-! ### Each statement's hypotheses can be met -/

/-- The status after an outcome. -/
def running (o : Host.Outcome State Fault Refusal) : Bool :=
  match o with
  | .next t => t.status == .running
  | .fault _ => false
  | .refused _ => false

theorem witness_DecodeOfEncodeGivesTheInstruction : referenceOpcodes.wf := by decide
theorem witness_DecodedBytesAreTheEncoding : decode referenceOpcodes [0x1A, 0xFF, 7] = .ok (.pop 0xFF, [7]) := by decide
theorem witness_OpcodeByteSelectsTheMnemonic :
    referenceOpcodes.wf ∧ decode referenceOpcodes [0x18, 3] = .ok (.pshReg 3, []) := by decide
theorem witness_UnassignedOpcodesAre247 : referenceOpcodes.wf := by decide

/-- Both sides of each bound, at the bound. -/
theorem witness_PortAcceptsExactlyTheBytesOfTheBuffer : (fresh 2).cfg.wf ∧
    1 ≤ (fresh 2).cfg.memLen - 1 ∧ ¬ 2 ≤ (fresh 2).cfg.memLen - 1 ∧
    0 ≤ (fresh 2).cfg.memLen - 2 ∧ ¬ 1 ≤ (fresh 2).cfg.memLen - 2 := by decide

theorem witness_SixteenBitAccessesAreBigEndian :
    memRead16 (codeAt 0x100 0xFE [1, 2]) 0xFE = .ok 0x0102 ∧ Memory.wf (fresh 0x100).mem ∧
    memWrite16 (fresh 0x100) 0xFE 0x0102 = .ok ((fresh 0x100).setMem [(0xFE, 1), (0xFF, 2)]) ∧
    fetch16 (codeAt 0x100 0xFE [1, 2]) = .ok (0x0102, (codeAt 0x100 0xFE [1, 2]).setReg .ip 0x100) := by decide

/-- The clause on stored words that are fetched. -/
theorem witness_SixteenBitAccessesAreBigEndian_fetched :
    ∃ t u w b c, (fresh 0x100).status = .running ∧ regOf 10 = some .sp ∧
      exec (.movRegMem 10 0xFE) (fresh 0x100) = .next t ∧ t.status = .running ∧
      fetch8 (t.setReg .ip 0xFE) = .ok (b, u) ∧ fetch8 (t.setReg .ip (0xFE + 1)) = .ok (c, w) ∧
      (0xFE : Word).toNat + 1 < 0x10000 := ⟨_, _, _, _, _, rfl, rfl, rfl, rfl, rfl, rfl, by decide⟩

theorem witness_WritesChangeOnlyTheBytesTheyName : Memory.wf (fresh 0x100).mem ∧
    memWrite8 (fresh 0x100) 0xFF 1 = .ok ((fresh 0x100).setMem [(0xFF, 1)]) ∧
    memWrite16 (fresh 0x100) 0xFE 1 = .ok ((fresh 0x100).setMem [(0xFF, 1)]) := by decide

theorem witness_EveryRegisterIsReadableAndWritable : (0 : RegIx).toNat < 12 ∧ (11 : RegIx).toNat < 12 := by decide

theorem witness_OutOfBankIndexFaultsOnAccess : 12 ≤ (12 : RegIx).toNat ∧ 12 ≤ (255 : RegIx).toNat ∧
    ((codeAt 0x100 0xFF [12]).reg .ip).toNat < (codeAt 0x100 0xFF [12]).cfg.memLen ∧
    (codeAt 0x100 0xFF [12]).byte ((codeAt 0x100 0xFF [12]).reg .ip).toNat = 12 := by decide

/-- Every register operand of every instruction, the source and the destination. -/
theorem witness_OutOfBankIndexFaultsOnAccess_reached (s : State) (h : s = fresh 0x10000) :
    reachesIndex 12 (.movLitReg 1 12) s ∧ reachesIndex 12 (.movRegReg 12 13) s ∧ reachesIndex 12 (.movRegReg 11 12) s ∧
    reachesIndex 12 (.movRegMem 12 0xFFFF) s ∧ reachesIndex 12 (.movMemReg 0xFFFE 12) s ∧
    reachesIndex 12 (.addRegReg 12 13) s ∧ reachesIndex 12 (.addRegReg 11 12) s ∧ reachesIndex 12 (.pshReg 12) s ∧
    reachesIndex 12 (.pop 12) s := by
  subst h
  refine ⟨rfl, .inl rfl, .inr ⟨?_, rfl⟩, rfl, ⟨?_, rfl⟩, .inl rfl, .inr ⟨?_, rfl⟩, rfl, ⟨?_, rfl⟩⟩ <;> decide

/-- `ip = L - 1` and `ip = L`. -/
theorem witness_FetchEightReadsAndAdvances :
    ((codeAt 0x100 0xFF []).reg .ip).toNat < 0x100 ∧ 0x100 ≤ ((codeAt 0x100 0x100 []).reg .ip).toNat := by decide

/-- `ip = L - 2`, `ip = L - 1` and `ip = 0xFFFF`. -/
theorem witness_FetchSixteenReadsAndAdvances : (fresh 0x100).cfg.wf ∧
    ((codeAt 0x100 0xFE []).reg .ip).toNat < 0x100 - 1 ∧ 0x100 - 1 ≤ ((codeAt 0x100 0xFF []).reg .ip).toNat ∧
    (codeAt 0x10000 0xFFFF []).reg .ip = 0xFFFF ∧ (fresh 0x10000).cfg.wf := by decide

/-- An instruction whose last byte is the last of memory, and one that wraps. -/
theorem witness_FetchReadsTheDecodedInstruction :
    ((codeAt 0x100 0xFD [0x17, 1, 2]).cfg.wf ∧
      decode referenceOpcodes (bytesAt (codeAt 0x100 0xFD [0x17, 1, 2]) 0xFD 5) = .ok (.pshLit 0x0102, [0, 0]) ∧
      memoryFault (codeAt 0x100 0xFD [0x17, 1, 2]) 0xFD 1 = none ∧
      firstFault (fetchFaults (codeAt 0x100 0xFD [0x17, 1, 2]) 0xFE [2]) = none) ∧
    (decode referenceOpcodes (bytesAt (codeAt 0x10000 0xFFFF [0x18, 2]) 0xFFFF 5) = .ok (.pshReg 2, [0, 0, 0]) ∧
      memoryFault (codeAt 0x10000 0xFFFF [0x18, 2]) 0xFFFF 1 = none ∧
      firstFault (fetchFaults (codeAt 0x10000 0xFFFF [0x18, 2]) 0 [1]) = none) := by decide

theorem witness_StepRunsTheFetchedInstruction :
    ∃ t, (codeAt 0x100 0xFE [0x1A, 2]).status = .running ∧
      fetchInstr (codeAt 0x100 0xFE [0x1A, 2]) = .ok (.instr (.pop 2) t) := ⟨_, rfl, rfl⟩

theorem witness_StepRunsTheInstructionInMemory :
    (codeAt 0x100 0xFE [0x1A, 2]).cfg.wf ∧ (codeAt 0x100 0xFE [0x1A, 2]).status = .running ∧
    (0xFE : Word).toNat + instrLength (Instr.pop 2).mnemonic ≤ 0x100 ∧
    bytesAt (codeAt 0x100 0xFE [0x1A, 2]) 0xFE (instrLength (Instr.pop 2).mnemonic) =
      encode referenceOpcodes (.pop 2) := by decide

theorem witness_StepRunsOnlyARunningInstance : (fresh 2).status = .running ∧
    ({ fresh 2 with status := .faulted (.invalidOpcode 0 0) } : State).status = .faulted (.invalidOpcode 0 0) := by decide

/-- Under each policy, at the last byte of memory. -/
theorem witness_UnassignedOpcodeFollowsThePolicy :
    ((codeAt 0x100 0xFF [0x19]).status = .running ∧ (0xFF : Word).toNat < 0x100 ∧
      (codeAt 0x100 0xFF [0x19]).byte 0xFF = 0x19 ∧ lookupOpcode referenceOpcodes 0x19 = none ∧
      (codeAt 0x100 0xFF [0x19]).cfg.unknownPolicy = .nop) ∧
    ((hardened (codeAt 0x100 0xFF [0x19])).status = .running ∧
      (hardened (codeAt 0x100 0xFF [0x19])).byte 0xFF = 0x19 ∧
      (hardened (codeAt 0x100 0xFF [0x19])).cfg.unknownPolicy = .fault) := by decide

/-- Memory of zeros at each length, and `ip = L` for the shorter one. -/
theorem witness_RunOverUnassignedBytes :
    (∀ a, lookupOpcode referenceOpcodes ((fresh 0x10000).byte a) = none) ∧
    (∀ a, lookupOpcode referenceOpcodes ((codeAt 0xFFFF 0xFFFF []).byte a) = none) ∧
    ((fresh 0x10000).cfg.wf ∧ (fresh 0x10000).status = .running ∧ (fresh 0x10000).cfg.unknownPolicy = .nop ∧
      (fresh 0x10000).cfg.memLen = 0x10000) ∧
    ((codeAt 0xFFFF 0xFFFF []).cfg.wf ∧ (codeAt 0xFFFF 0xFFFF []).cfg.memLen < 0x10000 ∧
      ((codeAt 0xFFFF 0xFFFF []).reg .ip).toNat ≤ 0xFFFF) :=
  ⟨fun _ => rfl, fun _ => rfl, by decide, by decide⟩

/-- An instruction, an unassigned byte, and a taken jump. -/
theorem witness_SuccessfulStepAdvancesIpByTheLength :
    (fresh 0x100).cfg.wf ∧ running (step (codeAt 0x100 0xFD [0x17, 1, 2])) = true ∧
    running (step (codeAt 0x100 0xFF [0x19])) = true ∧
    running (step (codeAt 0x100 0xFB [0x15, 0, 1, 2, 0])) = true := by decide

/-- A step with no fault and one with each kind of first fault. -/
theorem witness_StepRaisesTheFirstFailingAccess :
    (fresh 0x100).cfg.wf ∧ (fresh 0x100).status = .running ∧ stepFault (fresh 0x100) = none ∧
    stepFault (codeAt 0x100 0x100 []) = some (.outOfBounds .memory 0x100 1 0x100) ∧
    stepFault (codeAt 0x100 0xFF [0x18]) = some (.outOfBounds .memory 0x100 1 0xFF) ∧
    stepFault (codeAt 0x100 0xFE [0x18, 12]) = some (.outOfBounds .registerBank 24 2 0xFE) ∧
    stepFault (hardened (codeAt 0x100 0xFF [0x19])) = some (.invalidOpcode 0x19 0xFF) := by decide

/-- P6: a store at `L - 1`. -/
theorem witness_FaultLeavesRegistersAndMemory : Memory.wf (codeAt 0x100 4 [0x12, 2, 0, 0xFF]).mem ∧
    (codeAt 0x100 4 [0x12, 2, 0, 0xFF]).status = .running ∧
    ∃ t, step (codeAt 0x100 4 [0x12, 2, 0, 0xFF]) = .next t ∧ t.status = .faulted (.outOfBounds .memory 0xFF 2 4) :=
  ⟨by decide, rfl, _, rfl, rfl⟩

theorem witness_HostSeesTheFaultOfAStep : (fresh 2).status = .running ∧ (codeAt 2 2 []).status = .running := by decide

/-- A destination at each end of the bank, one outside it, and each operand fetch outside memory. -/
theorem witness_MovLitRegWritesTheLiteral :
    regOf 0 = some .ip ∧ regOf 11 = some .fp ∧ 12 ≤ (12 : RegIx).toNat ∧ (fresh 0x100).cfg.wf ∧
    (codeAt 0x100 0xFE [0x10]).status = .running ∧ (0xFE : Word).toNat < 0x100 ∧
    (codeAt 0x100 0xFE [0x10]).byte 0xFE = referenceOpcodes.movLitReg ∧ 0x100 < (0xFE + 1 : Word).toNat + 2 ∧
    (codeAt 0x100 0xFD [0x10]).byte 0xFD = referenceOpcodes.movLitReg ∧ (0xFD + 1 : Word).toNat + 2 ≤ 0x100 ∧
    0x100 < (0xFD + 3 : Word).toNat + 1 := by decide

theorem witness_MovRegRegCopiesTheSource : regOf 0 = some .ip ∧ regOf 11 = some .fp := by decide
theorem witness_MovRegMemStoresTheSource : Memory.wf (fresh 0x100).mem ∧ regOf 0 = some .ip ∧
    (0xFE : Word).toNat + 2 ≤ (fresh 0x100).cfg.memLen := by decide
theorem witness_MovMemRegLoadsTheWord : (0xFE : Word).toNat + 2 ≤ (fresh 0x100).cfg.memLen ∧ regOf 0 = some .ip := by decide
theorem witness_AddRegRegAddsModulo : regOf 0 = some .ip ∧ regOf 1 = some .acc := by decide

/-- `sp = L - 2`, `sp = L - 1`, and an operand fetch outside memory. -/
theorem witness_PshLitPushesTheLiteral : Memory.wf (fresh 0x100).mem ∧
    ((fresh 0x100).reg .sp).toNat + 2 ≤ 0x100 ∧ 0x100 < (((fresh 0x100).setReg .sp 0xFF).reg .sp).toNat + 2 ∧
    (fresh 0x100).cfg.wf ∧ (codeAt 0x100 0xFE [0x17]).status = .running ∧ (0xFE : Word).toNat < 0x100 ∧
    (codeAt 0x100 0xFE [0x17]).byte 0xFE = referenceOpcodes.pshLit ∧ 0x100 < (0xFE + 1 : Word).toNat + 2 := by decide

theorem witness_PshRegPushesTheSource : Memory.wf (fresh 0x100).mem ∧ regOf 10 = some .sp ∧
    ((fresh 0x100).reg .sp).toNat + 2 ≤ (fresh 0x100).cfg.memLen := by decide

/-- At the top of memory, and where the pop address wraps to 0. -/
theorem witness_PopLoadsAndRaisesSp :
    (((fresh 0x100).setReg .sp 0xFC).reg .sp + 2).toNat + 2 ≤ 0x100 ∧
    ((fresh 0x10000).reg .sp + 2).toNat + 2 ≤ (fresh 0x10000).cfg.memLen ∧ regOf 10 = some .sp := by decide

theorem witness_OnlyTheWrittenRegistersChange : running (exec (.pop 2) (fresh 0x10000)) = true ∧
    RegName.fp ≠ .ip ∧ RegName.fp ∉ writtenRegs (.pop 2) := by decide

/-- A storing instruction and one that stores nothing. -/
theorem witness_OnlyTheStoredBytesChange : Memory.wf (fresh 0x100).mem ∧
    running (exec (.pshLit 1) (fresh 0x100)) = true ∧ storeAddress (.pshLit 1) (fresh 0x100) = some 0xFE ∧
    running (exec (.movLitReg 1 2) (fresh 0x100)) = true ∧ storeAddress (.movLitReg 1 2) (fresh 0x100) = none := by decide

theorem witness_RawIndexZeroIsTheProgramCounter : Memory.wf (fresh 0x10000).mem ∧ regOf 2 = some .r1 ∧
    (0xFFFE : Word).toNat + 2 ≤ (fresh 0x10000).cfg.memLen ∧
    ((fresh 0x10000).reg .sp + 2).toNat + 2 ≤ (fresh 0x10000).cfg.memLen ∧
    ((fresh 0x10000).reg .sp).toNat + 2 ≤ (fresh 0x10000).cfg.memLen := by decide

/-- A target at the first address outside memory. -/
theorem witness_JumpTargetIsCheckedByTheNextStep : (fresh 0x100).status = .running ∧
    (1 : Word) ≠ (fresh 0x100).reg .acc ∧ (fresh 0x100).cfg.memLen ≤ (0x100 : Word).toNat := by decide

/-- V-J7. -/
theorem witness_SelfJumpRunsForever : (codeAt 0x100 0xFB [0x15, 0, 1, 0, 0xFB]).cfg.wf ∧
    (codeAt 0x100 0xFB [0x15, 0, 1, 0, 0xFB]).status = .running ∧
    (1 : Word) ≠ (codeAt 0x100 0xFB [0x15, 0, 1, 0, 0xFB]).reg .acc ∧ (0xFB : Word).toNat + 5 ≤ 0x100 ∧
    bytesAt (codeAt 0x100 0xFB [0x15, 0, 1, 0, 0xFB]) 0xFB 5 = encode referenceOpcodes (.jmpNotEq 1 0xFB) := by decide

/-- A push at `sp = 0` and one at `sp = 1`, with `L = 0x10000`; and `sp = 0` with a shorter memory. -/
theorem witness_PushDecrementWraps :
    (State.wf ((fresh 0x10000).setReg .sp 0) ∧ ((fresh 0x10000).setReg .sp 0).status = .running ∧
      pushedValue (.pshLit 7) ((fresh 0x10000).setReg .sp 0) = some 7 ∧
      (((fresh 0x10000).setReg .sp 0).reg .sp).toNat + 2 ≤ 0x10000) ∧
    (State.wf ((fresh 3).setReg .sp 1) ∧ pushedValue (.pshReg 2) ((fresh 3).setReg .sp 1) = some 0 ∧
      (((fresh 3).setReg .sp 1).reg .sp).toNat + 2 ≤ 3) ∧
    (State.wf ((fresh 2).setReg .sp 0) ∧ (((fresh 2).setReg .sp 0).reg .sp).toNat + 2 ≤ 2) := by decide

theorem witness_PshRegReadsBeforeTheDecrement : Memory.wf (fresh 2).mem ∧
    ((fresh 2).reg .sp).toNat + 2 ≤ (fresh 2).cfg.memLen := by decide

theorem witness_PopSpThrowsTheValueAway :
    ((fresh 0x10000).reg .sp + 2).toNat + 2 ≤ (fresh 0x10000).cfg.memLen := by decide

/-- `sp = L - 2` and, where the push wraps, `sp = 0`. -/
theorem witness_PushThenPopRoundTrip : State.wf (fresh 2) ∧ (fresh 2).status = .running ∧ regOf 11 = some .fp ∧
    ((fresh 2).reg .sp).toNat ≤ (fresh 2).cfg.memLen - 2 ∧ (fresh 2).reg .sp = 0 ∧ State.wf (fresh 0x100) ∧
    ((fresh 0x100).reg .sp).toNat ≤ (fresh 0x100).cfg.memLen - 2 := by decide

theorem witness_StepKeepsTheStateWellFormed : State.wf (codeAt 0x100 0xFD [0x17, 1, 2]) ∧
    running (step (codeAt 0x100 0xFD [0x17, 1, 2])) = true := by decide

theorem witness_ResetStateIsWellFormed : Config.wf Config.reference ∧ Memory.wf [(0, 1)] ∧
    Memory.within 0x10000 [(0, 1)] := by decide
theorem witness_EveryRunKeepsTheStateWellFormed : State.wf (codeAt 0x100 0xFD [0x17, 1, 2]) := by decide
theorem witness_FaultedInstanceStaysFaulted (f : Fault) : ({ fresh 2 with status := .faulted f } : State).status = .faulted f := rfl

/-- An operation other than `step()`, and a reading one. -/
theorem witness_OnlyAStepChangesTheStatus :
    HostOp.write8 0 1 ≠ .step ∧ ∃ n, HostOp.getRegister "ip" = .getRegister n := ⟨by decide, _, rfl⟩

theorem witness_ConstructionLeavesTheResetValues : Config.wf { Config.reference with memLen := 2 } ∧ Config.wf Config.reference := by
  decide

theorem witness_SetRegisterThenGetRegister :
    "fp" ∈ ["ip", "acc", "r1", "r2", "r3", "r4", "r5", "r6", "r7", "r8", "sp", "fp"] := by decide

/-- A valid name and an invalid one. -/
theorem witness_SetRegisterWritesOnlyTheNamedRegister :
    ("acc", .acc) ∈ namedRegisters ∧ ∀ r, ("pc", r) ∉ namedRegisters := ⟨by decide, fun r => by cases r <;> decide⟩

theorem witness_GetRegisterAcceptsExactlyTheTwelveNames : ("acc", .acc) ∈ namedRegisters ∧
    ∀ r, ("", r) ∉ namedRegisters := ⟨by decide, fun r => by cases r <;> decide⟩

/-- A request that ends at the last byte, and one that reaches past it. -/
theorem witness_InspectionReadsTheState : 0 < 2 ∧ 0xFE + 2 ≤ (fresh 0x100).cfg.memLen ∧
    (fresh 0x100).cfg.memLen < 0xFF + 2 := by decide

/-- A normal end, a fault and an exhausted run. -/
theorem witness_StopPolicyEndsTheRun :
    (∃ t, runTo 0 0 (fresh 2) = .normal t) ∧ (∃ f t, runTo 3 1 (codeAt 2 2 []) = .faulted f t) ∧
    (∃ t, runTo 5 1 (fresh 2) = .exhausted t) := ⟨⟨_, rfl⟩, ⟨_, _, rfl⟩, ⟨_, rfl⟩⟩

/-- The end address is reached in exactly `N` steps, and before `N` steps. -/
theorem test_stop_policy_stops_at_the_first_end :
    runTo 1 1 (fresh 4) = .normal ((fresh 4).setReg .ip 1) ∧ runTo 1 3 (fresh 4) = .normal ((fresh 4).setReg .ip 1) :=
  ⟨rfl, rfl⟩

/-- The last byte, the last word, and the first ones outside. -/
theorem witness_DriverReadsAndWritesMemory : Memory.wf (fresh 0x100).mem ∧ 0xFF + 1 ≤ (fresh 0x100).cfg.memLen ∧
    (fresh 0x100).cfg.memLen < 0x100 + 1 ∧ 0xFE + 2 ≤ (fresh 0x100).cfg.memLen ∧
    (fresh 0x100).cfg.memLen < 0xFF + 2 := by decide

/-- A step that ends `Running`, one that ends `Faulted`, and one that is refused; both accessors, and a name refused. -/
theorem witness_HostOperationsHappenInOrder :
    (∃ t, step (fresh 2) = .next t ∧ t.status = .running) ∧
    (∃ t f, step (codeAt 2 2 []) = .next t ∧ t.status = .faulted f ∧ t.status ≠ .running) ∧
    getRegister "sp" (fresh 2) = .ok 0 ∧ getRegister "pc" (fresh 2) = .error (.invalidRegisterName "pc") ∧
    setRegister "r1" 5 (fresh 2) = .ok ((fresh 2).setReg .r1 5) ∧ perform .registers (fresh 2) =
      (fresh 2, .listing (listRegisters (fresh 2))) :=
  ⟨⟨_, rfl, rfl⟩, ⟨_, _, rfl, rfl, by decide⟩, by decide, by decide, by decide, rfl⟩

theorem witness_EightBitAccessIsInRangeInsideTheBuffer : (fresh 2).cfg.wf ∧ (fresh 0x10000).cfg.wf := by decide

end Sys2Proof.Tests
end

section
/-! The range of an 8-bit access (20_memory.md R53). -/

namespace Sys2Proof.Proofs.ByteRange
open Sys2Proof Sys2Proof.Machine

/-- The check of the memory port, counted by length. -/
theorem memRead8_succeeds_iff {s : State} {a : Nat} : (∃ b, memRead8 s a = .ok b) ↔ a + 1 ≤ s.cfg.memLen := by
  simp only [memRead8_ok, exists_and_left, exists_eq, and_true]

theorem memWrite8_succeeds_iff {s : State} {a : Nat} {v : Byte} :
    (∃ t, memWrite8 s a v = .ok t) ↔ a + 1 ≤ s.cfg.memLen := by
  simp only [memWrite8_ok, exists_and_left, exists_eq, and_true]

/-- The same check as the spec words it, by the last offset. The buffer is not empty (`2 <= L`), so `L - 1` is not cut
off at 0: with `L = 0` the offset 0 would meet the right side alone. -/
theorem byte_fits_iff_le_last {c : Config} (hc : c.wf) (a : Nat) : a + 1 ≤ c.memLen ↔ 0 ≤ a ∧ a ≤ c.memLen - 1 := by
  obtain ⟨two_le, _, _⟩ := hc
  omega

/-- Settles O57: the read and the write make the same check, and that check is the spec's range. -/
theorem eightBitAccessIsInRangeInsideTheBuffer : Obligations.EightBitAccessIsInRangeInsideTheBuffer := by
  intro s a v hcfg
  have in_range := byte_fits_iff_le_last hcfg a
  exact ⟨memRead8_succeeds_iff.trans in_range, memWrite8_succeeds_iff.trans in_range⟩

end Sys2Proof.Proofs.ByteRange
end

section
/-! The opcode byte selects the mnemonic (30_encoding.md R86). The chain of comparisons is a search through the nine
mnemonics, so that what a search finds, and what it finds when no code repeats, are facts about lists. -/

namespace Sys2Proof.Proofs.OpcodeByte
open Sys2Proof Sys2Proof.Machine

/-! ### The search through the opcode map -/

/-- The nine mnemonics in the order of 30_encoding.md R85. -/
def allMnemonics : List Mnemonic :=
  [.movLitReg, .movRegReg, .movRegMem, .movMemReg, .addRegReg, .jmpNotEq, .pshLit, .pshReg, .pop]

theorem mem_allMnemonics (mn : Mnemonic) : mn ∈ allMnemonics := by cases mn <;> decide

theorem codes_eq_map (m : OpcodeMap) : m.codes = allMnemonics.map m.code := rfl

/-- `OPCODE` as a function of the mnemonic is injective where its list of values repeats none. -/
theorem code_injective {m : OpcodeMap} (hm : m.wf) : Function.Injective m.code := fun a b hab =>
  List.inj_on_of_nodup_map (codes_eq_map m ▸ hm) (mem_allMnemonics a) (mem_allMnemonics b) hab

/-- One comparison of the search, as the decoder writes it. -/
theorem find?_code_cons (m : OpcodeMap) (op : Byte) (mn : Mnemonic) (l : List Mnemonic) :
    (mn :: l).find? (fun x => op = m.code x) = if op = m.code mn then some mn else l.find? fun x => op = m.code x := by
  split
  next hop => exact List.find?_cons_of_pos (decide_eq_true hop)
  next hop => exact List.find?_cons_of_neg (by simpa only [decide_eq_true_eq] using hop)

/-- The chain of comparisons takes the first mnemonic whose code is the whole byte. -/
theorem lookupOpcode_eq_find? (m : OpcodeMap) (op : Byte) :
    lookupOpcode m op = allMnemonics.find? fun mn => op = m.code mn := by
  simp only [allMnemonics, find?_code_cons, List.find?_nil]
  rfl

/-- What the lookup finds has the byte as its code, under any `OPCODE`. -/
theorem code_of_lookupOpcode {m : OpcodeMap} {op : Byte} {mn : Mnemonic} (h : lookupOpcode m op = some mn) :
    op = m.code mn := by
  rw [lookupOpcode_eq_find?] at h
  simpa using List.find?_some h

/-- The lookup of a mnemonic's code finds some mnemonic. Where a code repeats, it may be another one. -/
theorem lookupOpcode_code_isSome (m : OpcodeMap) (mn : Mnemonic) : (lookupOpcode m (m.code mn)).isSome := by
  rw [lookupOpcode_eq_find?, List.find?_isSome]
  exact ⟨mn, mem_allMnemonics mn, decide_eq_true rfl⟩

@[simp] theorem lookupOpcode_code {m : OpcodeMap} (hm : m.wf) (mn : Mnemonic) :
    lookupOpcode m (m.code mn) = some mn := by
  obtain ⟨found, hfound⟩ := Option.isSome_iff_exists.1 (lookupOpcode_code_isSome m mn)
  rw [hfound, code_injective hm (code_of_lookupOpcode hfound)]

theorem lookupOpcode_eq_some_iff {m : OpcodeMap} (hm : m.wf) {op : Byte} {mn : Mnemonic} :
    lookupOpcode m op = some mn ↔ op = m.code mn :=
  ⟨code_of_lookupOpcode, fun hop => hop ▸ lookupOpcode_code hm mn⟩

/-! ### The operand fields keep the mnemonic -/

/-- If the reader answers an instruction, it is one of the mnemonic `mn`. -/
def Yields {σ ε : Type} (mn : Mnemonic) (r : Except ε (Instr × σ)) : Prop :=
  ∀ i s, r = .ok (i, s) → i.mnemonic = mn

theorem Yields.pure {σ ε : Type} {mn : Mnemonic} {i : Instr} {s : σ} (hi : i.mnemonic = mn) :
    Yields mn (Pure.pure (i, s) : Except ε (Instr × σ)) := by
  rintro _ _ ⟨⟩
  exact hi

/-- An operand read first changes nothing, whatever it answers. -/
theorem Yields.bind {σ ε α : Type} {mn : Mnemonic} {x : Except ε α} {k : α → Except ε (Instr × σ)}
    (hk : ∀ a, Yields mn (k a)) : Yields mn (x >>= k) := by
  cases x with
  | error e => rintro _ _ ⟨⟩
  | ok a => exact hk a

/-- From any source of bytes, the operands of a mnemonic make an instruction of that mnemonic. -/
theorem readOperands_yields {σ ε : Type} (f8 : σ → Except ε (Byte × σ)) (f16 : σ → Except ε (Word × σ))
    (mn : Mnemonic) (s : σ) : Yields mn (readOperands f8 f16 mn s) := by
  cases mn with
  | movLitReg | movRegReg | movRegMem | movMemReg | addRegReg | jmpNotEq =>
    exact .bind fun _ => .bind fun _ => .pure rfl
  | pshLit | pshReg | pop => exact .bind fun _ => .pure rfl

/-! ### The decoder -/

/-- Bytes that decode begin with a byte the lookup takes to the mnemonic of the instruction. -/
theorem lookupOpcode_of_decode {m : OpcodeMap} {op : Byte} {l rest : List Byte} {i : Instr}
    (h : decode m (op :: l) = .ok (i, rest)) : lookupOpcode m op = some i.mnemonic := by
  unfold decode at h
  cases hop : lookupOpcode m op with
  | none => simp [hop] at h
  | some mn =>
    simp only [hop] at h
    rw [readOperands_yields _ _ _ _ _ _ h]

/-- Settles O3: the lookup inverts `OPCODE` because no code repeats, and the operands do not change the mnemonic it
found. -/
theorem opcodeByteSelectsTheMnemonic : Obligations.OpcodeByteSelectsTheMnemonic := by
  intro m hm
  exact ⟨fun _ _ => lookupOpcode_eq_some_iff hm, fun _ _ _ _ h => code_of_lookupOpcode (lookupOpcode_of_decode h)⟩

end Sys2Proof.Proofs.OpcodeByte
end

section
/-! The registers after construction, as the host reads them (70_reset_and_hazards.md R214; 10_state.md R21). -/

namespace Sys2Proof.Proofs.ConstructedRegisters
open Sys2Proof Sys2Proof.Machine

/-! ### Reading a register by its name -/

theorem registerNamed_registerName (r : RegName) : registerNamed (registerName r) = some r := by
  cases r <;> decide

@[simp] theorem getRegister_registerName (r : RegName) (s : State) :
    getRegister (registerName r) s = .ok (s.reg r) := by
  simp only [getRegister, registerNamed_registerName]

/-! ### What construction left there -/

/-- The value construction puts into `sp` and `fp` does not wrap: `L - 2` fits a word because `L <= 0x10000`. -/
theorem stackTop_toNat {c : Config} (hc : c.wf) : (BitVec.ofNat 16 (c.memLen - 2)).toNat = c.memLen - 2 := by
  obtain ⟨_, le_64K, _⟩ := hc
  rw [BitVec.toNat_ofNat, Nat.mod_eq_of_lt (by omega)]

theorem getRegister_construct_stack {c : Config} (hc : c.wf) (m : Memory) {r : RegName} (hr : r = .sp ∨ r = .fp) :
    ∃ v, getRegister (registerName r) (State.construct c m) = .ok v ∧ v.toNat = c.memLen - 2 :=
  ⟨_, by rw [getRegister_registerName, construct_reg, if_pos hr], stackTop_toNat hc⟩

theorem getRegister_construct_zero (c : Config) (m : Memory) {r : RegName} (hr : ¬(r = .sp ∨ r = .fp)) :
    getRegister (registerName r) (State.construct c m) = .ok 0 := by
  rw [getRegister_registerName, construct_reg, if_neg hr]

/-- The ten names are those of the registers other than `sp` and `fp`. -/
theorem zeroedNames_eq_map : ["ip", "acc", "r1", "r2", "r3", "r4", "r5", "r6", "r7", "r8"] =
    (RegName.all.filter fun r => ¬(r = .sp ∨ r = .fp)).map registerName := by
  decide

/-- Settles O49: each name is that of a register, and `construct_reg` says which value the register holds. -/
theorem constructionLeavesTheResetValues : Obligations.ConstructionLeavesTheResetValues := by
  intro c m hc
  refine ⟨getRegister_construct_stack hc m (.inl rfl), getRegister_construct_stack hc m (.inr rfl), ?_,
    construct_status c m⟩
  intro name hname
  rw [zeroedNames_eq_map, List.mem_map] at hname
  obtain ⟨r, hr, rfl⟩ := hname
  exact getRegister_construct_zero c m (of_decide_eq_true (List.mem_filter.1 hr).2)

end Sys2Proof.Proofs.ConstructedRegisters
end

section
/-! Two statements in sequence (60_exceptions.md R187): the second runs exactly if the first answers. -/

namespace Sys2Proof.Proofs.Sequence

variable {ε α β : Type} {x : Except ε α} {f : α → Except ε β}

theorem ok_bind (a : α) : (.ok a : Except ε α) >>= f = f a := rfl

theorem error_bind (e : ε) : (.error e : Except ε α) >>= f = .error e := rfl

@[simp] theorem bind_eq_ok {b : β} : x >>= f = .ok b ↔ ∃ a, x = .ok a ∧ f a = .ok b := by
  cases x <;> simp [bind, Except.bind]

@[simp] theorem bind_eq_error {e : ε} : x >>= f = .error e ↔ x = .error e ∨ ∃ a, x = .ok a ∧ f a = .error e := by
  cases x <;> simp [bind, Except.bind]

@[simp] theorem pure_eq_ok {a b : α} : (pure a : Except ε α) = .ok b ↔ a = b := by simp [pure, Except.pure]

end Sys2Proof.Proofs.Sequence
end

section
/-! Decoding and encoding invert each other (30_encoding.md R84, R86, R88), and how many bytes no mnemonic has (R87). -/

namespace Sys2Proof.Proofs.Encoding
open Sys2Proof Sys2Proof.Machine Sys2Proof.Proofs.OpcodeByte Sys2Proof.Proofs.Sequence

/-! ### The operand fields of a list of bytes -/

/-- The bytes of an instruction after its opcode byte, in fetch order. -/
def operandBytes : Instr → List Byte
  | .movLitReg lit dst => [hiByte lit, loByte lit, dst]
  | .movRegReg src dst => [src, dst]
  | .movRegMem src addr => [src, hiByte addr, loByte addr]
  | .movMemReg addr dst => [hiByte addr, loByte addr, dst]
  | .addRegReg fst snd => [fst, snd]
  | .jmpNotEq lit target => [hiByte lit, loByte lit, hiByte target, loByte target]
  | .pshLit lit => [hiByte lit, loByte lit]
  | .pshReg src => [src]
  | .pop dst => [dst]

theorem encode_eq_cons (m : OpcodeMap) (i : Instr) : encode m i = m.code i.mnemonic :: operandBytes i := by
  cases i <;> rfl

theorem takeByte_ok {ε : Type} {short : ε} {l rest : List Byte} {b : Byte} :
    takeByte short l = .ok (b, rest) ↔ l = b :: rest := by
  cases l <;> simp [takeByte]

/-- A word is taken from exactly its own two bytes: no bit of them is ignored. -/
theorem takeWord_ok {ε : Type} {short : ε} {l rest : List Byte} {v : Word} :
    takeWord short l = .ok (v, rest) ↔ l = hiByte v :: loByte v :: rest := by
  match l with
  | [] => simp [takeWord]
  | [b] => simp [takeWord]
  | hi :: lo :: r =>
    simp only [takeWord, Except.ok.injEq, Prod.mk.injEq, List.cons.injEq]
    constructor
    · rintro ⟨rfl, rfl⟩; simp
    · rintro ⟨rfl, rfl, rfl⟩; simp

section
variable {ε : Type} (short : ε)

theorem takeByte_cons (b : Byte) (rest : List Byte) : takeByte short (b :: rest) = .ok (b, rest) := rfl

theorem takeWord_bytes (v : Word) (rest : List Byte) :
    takeWord short (hiByte v :: loByte v :: rest) = .ok (v, rest) := takeWord_ok.2 rfl

theorem readOperands_operandBytes (i : Instr) (rest : List Byte) :
    readOperands (takeByte short) (takeWord short) i.mnemonic (operandBytes i ++ rest) = .ok (i, rest) := by
  cases i <;>
    simp only [Instr.mnemonic, readOperands, operandBytes, List.cons_append, List.nil_append, takeByte_cons,
      takeWord_bytes, ok_bind] <;> rfl

theorem eq_operandBytes_of_readOperands {mn : Mnemonic} {l rest : List Byte} {i : Instr}
    (h : readOperands (takeByte short) (takeWord short) mn l = .ok (i, rest)) : l = operandBytes i ++ rest := by
  cases mn <;>
    simp only [readOperands, bind_eq_ok, pure_eq_ok, Prod.exists, Prod.mk.injEq, takeByte_ok, takeWord_ok] at h
  case pshLit | pshReg | pop =>
    obtain ⟨_, _, rfl, rfl, rfl⟩ := h
    rfl
  all_goals
    obtain ⟨_, _, rfl, _, _, rfl, rfl, rfl⟩ := h
    rfl

end

/-! ### The decoder -/

theorem decode_cons_of_lookup {m : OpcodeMap} {op : Byte} {mn : Mnemonic} (h : lookupOpcode m op = some mn)
    (l : List Byte) :
    decode m (op :: l) = readOperands (takeByte (.truncated mn)) (takeWord (.truncated mn)) mn l := by
  simp only [decode, h]

theorem decode_cons_of_unassigned {m : OpcodeMap} {op : Byte} (h : lookupOpcode m op = none) (l : List Byte) :
    decode m (op :: l) = .error (.unassigned op) := by
  simp only [decode, h]

/-- Settles O1: the opcode byte selects the mnemonic, and its operands are read from the bytes written for them. -/
theorem decodeOfEncodeGivesTheInstruction : Obligations.DecodeOfEncodeGivesTheInstruction := by
  intro m hm i rest
  rw [encode_eq_cons, List.cons_append, decode_cons_of_lookup (lookupOpcode_code hm _)]
  exact readOperands_operandBytes _ i rest

/-- Settles O2: what the operands are read from is what they are written as, field by field. -/
theorem decodedBytesAreTheEncoding : Obligations.DecodedBytesAreTheEncoding := by
  intro m l rest i h
  cases l with
  | nil => simp [decode] at h
  | cons op l =>
    have hop := lookupOpcode_of_decode h
    rw [decode_cons_of_lookup hop] at h
    rw [encode_eq_cons, ← code_of_lookupOpcode hop, eq_operandBytes_of_readOperands _ h, List.cons_append]

/-! ### The unassigned bytes -/

/-- The lookup finds a mnemonic for exactly the nine codes, under any `OPCODE`. -/
theorem lookupOpcode_isSome_iff (m : OpcodeMap) (op : Byte) : (lookupOpcode m op).isSome ↔ op ∈ m.codes := by
  rw [lookupOpcode_eq_find?, List.find?_isSome, codes_eq_map, List.mem_map]
  simp [eq_comm]

/-- The assigned byte values are the nine codes, in another order. -/
theorem assigned_perm_codes {m : OpcodeMap} (hm : m.wf) :
    ((List.range 256).filter fun n => (lookupOpcode m (BitVec.ofNat 8 n)).isSome).Perm (m.codes.map BitVec.toNat) := by
  rw [List.perm_ext_iff_of_nodup (List.nodup_range.filter _) (hm.map fun _ _ => BitVec.eq_of_toNat_eq)]
  intro n
  simp only [List.mem_filter, List.mem_range, lookupOpcode_isSome_iff, List.mem_map]
  constructor
  · rintro ⟨hn, hcode⟩
    exact ⟨_, hcode, by rw [BitVec.toNat_ofNat, Nat.mod_eq_of_lt hn]⟩
  · rintro ⟨op, hop, rfl⟩
    exact ⟨op.isLt, by rwa [BitVec.ofNat_toNat, BitVec.setWidth_eq]⟩

/-- Settles O4: 256 byte values less the nine codes, which are different. -/
theorem unassignedOpcodesAre247 : Obligations.UnassignedOpcodesAre247 := by
  intro m hm
  have assigned := (assigned_perm_codes hm).length_eq
  have both := @List.length_eq_length_filter_add _ (List.range 256)
    fun n => (lookupOpcode m (BitVec.ofNat 8 n)).isSome
  have nine : (m.codes.map BitVec.toNat).length = 9 := rfl
  simp only [Option.not_isSome, List.length_range] at both
  omega

/-- Settles O5: ten closed words, decoded. -/
theorem wordsOfTheSpecDecode : Obligations.WordsOfTheSpecDecode := by
  unfold Obligations.WordsOfTheSpecDecode
  decide

end Sys2Proof.Proofs.Encoding
end

section
/-! What each update of the state leaves, in the words of the statements: the registers an effect reads, the bytes a
store leaves, and `Becomes`, built up one update at a time. -/

namespace Sys2Proof.Proofs.Updates
open Sys2Proof Sys2Proof.Machine

/-! ### Bytes and words of memory -/

theorem memGet_eq_byte (s : State) (a : Nat) : memGet s.mem a = s.byte a := rfl
theorem memGet16_eq_wordAt (s : State) (a : Nat) : memGet16 s.mem a = wordAt s a := rfl

theorem byte_memSet {s : State} (hm : Memory.wf s.mem) (a b : Nat) (v : Byte) :
    (s.setMem (memSet s.mem a v)).byte b = if b = a then v else s.byte b := memGet_memSet _ _ _ _ hm

theorem byte_memSet16 {s : State} (hm : Memory.wf s.mem) (a b : Nat) (v : Word) :
    (s.setMem (memSet16 s.mem a v)).byte b = storedBytes s a v b := memGet_memSet16 _ _ _ _ hm

theorem storedBytes_hi (s : State) (a : Nat) (v : Word) : storedBytes s a v a = hiByte v := if_pos rfl

theorem storedBytes_lo (s : State) (a : Nat) (v : Word) : storedBytes s a v (a + 1) = loByte v := by
  rw [storedBytes, if_neg (by omega), if_pos rfl]
  rfl

theorem storedBytes_other (s : State) {a b : Nat} (v : Word) (ha : b ≠ a) (ha' : b ≠ a + 1) :
    storedBytes s a v b = s.byte b := by
  rw [storedBytes, if_neg ha, if_neg ha']

theorem wordAt_toNat (s : State) (a : Nat) : (wordAt s a).toNat = (s.byte a).toNat * 256 + (s.byte (a + 1)).toNat :=
  be16_toNat _ _

/-- A stored word is read back. -/
theorem wordAt_of_stored {s t : State} {a : Nat} {v : Word} (h : ∀ b, t.byte b = storedBytes s a v b) :
    wordAt t a = v := by
  have : wordAt t a = be16 (t.byte a) (t.byte (a + 1)) := rfl
  rw [this, h, h, storedBytes_hi, storedBytes_lo, be16_hiByte_loByte]

/-! ### The registers an effect reads -/

theorem advanceIp_reg_eq_effectReg (n : Nat) (s : State) (r : RegName) :
    (advanceIp n s).reg r = effectReg s (BitVec.ofNat 16 n) r := advanceIp_reg n s r

/-- Two states with the same registers, memory, status, configuration and count of free values are the same state. -/
theorem state_ext {s t : State} (hreg : ∀ r, t.reg r = s.reg r) (hmem : t.mem = s.mem) (hst : t.status = s.status)
    (hcfg : t.cfg = s.cfg) (hdr : t.draws = s.draws) : t = s := by
  have hregs : t.regs = s.regs := Regs.ext_get hreg
  cases s; cases t
  simp_all

/-! ### What the state becomes -/

variable {s t : State} {x : RegName → Word} {b : Nat → Byte}

theorem becomes_refl (s : State) : Becomes s s s.reg s.byte := ⟨fun _ => rfl, fun _ => rfl, rfl, rfl, rfl⟩

/-- Advancing `ip` past an instruction gives the registers its effect reads. -/
theorem becomes_advanceIp (n : Nat) (s : State) : Becomes s (advanceIp n s) (effectReg s (BitVec.ofNat 16 n)) s.byte :=
  ⟨advanceIp_reg_eq_effectReg n s, fun _ => rfl, rfl, rfl, rfl⟩

theorem becomes_setReg (h : Becomes s t x b) (r : RegName) (v : Word) :
    Becomes s (t.setReg r v) (fun q => if q = r then v else x q) b := by
  obtain ⟨hreg, hbyte, hst, hcfg, hdr⟩ := h
  exact ⟨fun q => by rw [State.reg_setReg, hreg], hbyte, hst, hcfg, hdr⟩

theorem becomes_memSet (hm : Memory.wf s.mem) (a : Nat) (v : Byte) :
    Becomes s (s.setMem (memSet s.mem a v)) s.reg (fun c => if c = a then v else s.byte c) :=
  ⟨fun _ => rfl, fun c => byte_memSet hm a c v, rfl, rfl, rfl⟩

/-- A word stored where memory is still that of `s`. -/
theorem becomes_memSet16 (hm : Memory.wf s.mem) (h : Becomes s t x s.byte) (ht : t.mem = s.mem) (a : Nat) (v : Word) :
    Becomes s (t.setMem (memSet16 t.mem a v)) x (storedBytes s a v) := by
  obtain ⟨hreg, _, hst, hcfg, hdr⟩ := h
  exact ⟨hreg, fun c => ht ▸ byte_memSet16 hm a c v, hst, hcfg, hdr⟩

/-- A register that was written holds what it holds. -/
theorem becomes_own_value {r : RegName} {v : Word} (h : Becomes s t (fun q => if q = r then v else x q) b) :
    Becomes s t (fun q => if q = r then t.reg r else x q) b := by
  have hv : t.reg r = v := (h.1 r).trans (if_pos rfl)
  rwa [hv]

end Sys2Proof.Proofs.Updates
end

section
/-! The memory port (20_memory.md R52 to R58), the register bank (10_state.md R22, R24) and the fetch primitives
(40_cycle.md R100, R101). -/

namespace Sys2Proof.Proofs.Primitives
open Sys2Proof Sys2Proof.Machine Sys2Proof.Proofs.Updates

/-! ### The memory port -/

/-- Settles O6. The buffer holds two bytes at least, so `L - 1` and `L - 2` are not cut off at 0. -/
theorem portAcceptsExactlyTheBytesOfTheBuffer : Obligations.PortAcceptsExactlyTheBytesOfTheBuffer := by
  rintro s a b v ⟨two_le, _, _⟩
  refine ⟨⟨fun ha => ?_, fun ha => ?_⟩, fun ha => ?_, fun ha => ?_⟩
  · have in_range : a + 1 ≤ s.cfg.memLen := by omega
    exact ⟨memRead8_ok.2 ⟨in_range, rfl⟩, _, memWrite8_ok.2 ⟨in_range, rfl⟩⟩
  · have outside : s.cfg.memLen < a + 1 := by omega
    exact ⟨memRead8_error.2 ⟨outside, rfl⟩, memWrite8_error.2 ⟨outside, rfl⟩⟩
  · have in_range : a + 2 ≤ s.cfg.memLen := by omega
    exact ⟨memRead16_ok.2 ⟨in_range, rfl⟩, _, memWrite16_ok.2 ⟨in_range, rfl⟩⟩
  · have outside : s.cfg.memLen < a + 2 := by omega
    exact ⟨memRead16_error.2 ⟨outside, rfl⟩, memWrite16_error.2 ⟨outside, rfl⟩⟩

/-- Settles O8: read after write at every address, in the canonical form. -/
theorem writesChangeOnlyTheBytesTheyName : Obligations.WritesChangeOnlyTheBytesTheyName := by
  intro s t a hm
  refine ⟨fun v h => ?_, fun v h => ?_⟩
  · obtain ⟨in_range, rfl⟩ := memWrite8_ok.1 h
    refine ⟨memRead8_ok.2 ⟨in_range, ?_⟩, fun b hb => ?_, rfl, rfl⟩
    · rw [memGet_eq_byte, byte_memSet hm, if_pos rfl]
    · rw [byte_memSet hm, if_neg hb]
  · obtain ⟨in_range, rfl⟩ := memWrite16_ok.1 h
    refine ⟨memRead16_ok.2 ⟨in_range, ?_⟩, fun b hb hb' => ?_, rfl, rfl⟩
    · rw [memGet16_eq_wordAt, wordAt_of_stored fun b => byte_memSet16 hm a b v]
    · rw [byte_memSet16 hm, storedBytes_other _ _ hb hb']

/-! ### The register bank -/

theorem regOf_inBank {i : RegIx} (h : i.toNat < 12) : ∃ r, regOf i = some r :=
  Option.ne_none_iff_exists'.1 fun hn => by have := regOf_none.1 hn; omega

/-- Settles O9: twelve rows of the list, and nothing past its end. -/
theorem rawIndexIsTheListPosition : Obligations.RawIndexIsTheListPosition :=
  ⟨rfl, rfl, rfl, rfl, rfl, rfl, rfl, rfl, rfl, rfl, rfl, rfl, fun _ => regOf_none.2⟩

/-- Settles O10: an index in the bank selects a register, and the write is to that one. -/
theorem everyRegisterIsReadableAndWritable : Obligations.EveryRegisterIsReadableAndWritable := by
  intro i v s hi
  obtain ⟨r, hr⟩ := regOf_inBank hi
  refine ⟨r, s.setReg r v, hr, writeReg_ok.2 ⟨r, hr, rfl⟩, readReg_ok.2 ⟨r, hr, ?_⟩,
    becomes_setReg (becomes_refl s) r v⟩
  rw [State.reg_setReg, if_pos rfl]

/-! ### The fetch primitives -/

theorem becomes_fetched (n : Nat) (s : State) :
    Becomes s (advanceIp n s) (fun r => if r = .ip then (advanceIp n s).reg .ip else s.reg r) s.byte :=
  becomes_own_value (becomes_advanceIp n s)

theorem advanceIp_ip_toNat (n : Nat) (s : State) :
    ((advanceIp n s).reg .ip).toNat = ((s.reg .ip).toNat + n) % 65536 := by
  simp

/-- Settles O12: `fetch8` is one read at `ip` and the advance. -/
theorem fetchEightReadsAndAdvances : Obligations.FetchEightReadsAndAdvances := fun s =>
  ⟨fun h => ⟨_, fetch8_ok.2 ⟨h, rfl, rfl⟩, advanceIp_ip_toNat 1 s, becomes_fetched 1 s⟩,
    fun h => ⟨_, fetch8_error.2 ⟨Nat.lt_succ_of_le h, rfl⟩, rfl⟩⟩

/-- Settles O13. At `0xFFFF` the second byte would be at `0x10000`, which no buffer has. -/
theorem fetchSixteenReadsAndAdvances : Obligations.FetchSixteenReadsAndAdvances := by
  rintro s ⟨two_le, le_64K, _⟩
  refine ⟨fun h => ?_, fun h => ?_, fun h => ?_⟩
  · exact ⟨_, fetch16_ok.2 ⟨by omega, rfl, rfl⟩, advanceIp_ip_toNat 2 s, becomes_fetched 2 s⟩
  · exact ⟨_, fetch16_error.2 ⟨by omega, rfl⟩, rfl⟩
  · have at_top : (s.reg .ip).toNat = 65535 := by rw [h]; rfl
    exact ⟨_, fetch16_error.2 ⟨by omega, rfl⟩⟩

end Sys2Proof.Proofs.Primitives
end

section
/-! What each instruction does when no access of it fails: its effect, the state the effect answers, and what that state
keeps (41_data_movement.md to 44_stack.md). -/

namespace Sys2Proof.Proofs.Effects
open Sys2Proof Sys2Proof.Machine Sys2Proof.Proofs.Sequence Sys2Proof.Proofs.Updates

/-- The statements of an instruction, with `ip` past it: the state they reach, or the first access that fails. -/
def effect : Instr → State → Except Abort State
  | .movLitReg lit dst, s => writeReg dst lit (advanceIp 4 s)
  | .movRegReg src dst, s => readReg src (advanceIp 3 s) >>= fun v => writeReg dst v (advanceIp 3 s)
  | .movRegMem src addr, s => readReg src (advanceIp 4 s) >>= fun v => storeWord addr v (advanceIp 4 s)
  | .movMemReg addr dst, s => loadWord addr (advanceIp 4 s) >>= fun v => writeReg dst v (advanceIp 4 s)
  | .addRegReg fst snd, s =>
    readReg fst (advanceIp 3 s) >>= fun va => readReg snd (advanceIp 3 s) >>= fun vb =>
      pure ((advanceIp 3 s).setReg .acc (aluAdd va vb))
  | .jmpNotEq lit target, s =>
    .ok (if aluEqual lit ((advanceIp 5 s).reg .acc) then advanceIp 5 s else (advanceIp 5 s).setReg .ip target)
  | .pshLit lit, s => pushWord lit (advanceIp 3 s)
  | .pshReg src, s => readReg src (advanceIp 2 s) >>= fun v => pushWord v (advanceIp 2 s)
  | .pop dst, s =>
    loadWord (popAddress (advanceIp 2 s)) (advanceIp 2 s) >>= fun v => writeReg dst v (advanceIp 2 s) >>= fun u =>
      pure (u.setReg .sp (popAddress (advanceIp 2 s)))

/-- An instruction is its effect, and what the end of a step makes of it. -/
theorem exec_eq_complete (i : Instr) (s : State) : exec i s = complete s (effect i s) := by cases i <;> rfl

section
variable {s t : State}

theorem exec_of_effect_ok {i : Instr} (h : effect i s = .ok t) : exec i s = .next t := by
  rw [exec_eq_complete, h, complete_ok]

theorem exec_of_effect_error {i : Instr} {e : Abort} (h : effect i s = .error e) :
    exec i s = .next (takeFault e s) := by
  rw [exec_eq_complete, h, complete_error]

/-! ### The state each effect answers -/

theorem readReg_advanceIp_ok {n : Nat} {i : RegIx} {v : Word} :
    readReg i (advanceIp n s) = .ok v ↔ ∃ p, regOf i = some p ∧ v = effectReg s (BitVec.ofNat 16 n) p := by
  simp only [readReg_ok, advanceIp_reg_eq_effectReg]

theorem loadWord_advanceIp_ok {n : Nat} {a v : Word} :
    loadWord a (advanceIp n s) = .ok v ↔ a.toNat + 2 ≤ s.cfg.memLen ∧ v = wordAt s a.toNat := loadWord_ok

theorem popAddress_advanceIp (n : Nat) (s : State) : popAddress (advanceIp n s) = s.reg .sp + 2 := popAddress_eq _

theorem effect_movLitReg {lit : Word} {d : RegIx} :
    effect (.movLitReg lit d) s = .ok t ↔ ∃ r, regOf d = some r ∧ t = (advanceIp 4 s).setReg r lit := writeReg_ok

theorem effect_movRegReg {a d : RegIx} :
    effect (.movRegReg a d) s = .ok t ↔
      ∃ p r, regOf a = some p ∧ regOf d = some r ∧ t = (advanceIp 3 s).setReg r (effectReg s 3 p) := by
  simp only [effect, bind_eq_ok, readReg_advanceIp_ok, writeReg_ok]
  constructor
  · rintro ⟨_, ⟨p, hp, rfl⟩, r, hr, rfl⟩; exact ⟨p, r, hp, hr, rfl⟩
  · rintro ⟨p, r, hp, hr, rfl⟩; exact ⟨_, ⟨p, hp, rfl⟩, r, hr, rfl⟩

theorem effect_movRegMem {a : RegIx} {addr : Word} :
    effect (.movRegMem a addr) s = .ok t ↔ ∃ p, regOf a = some p ∧ addr.toNat + 2 ≤ s.cfg.memLen ∧
      t = (advanceIp 4 s).setMem (memSet16 (advanceIp 4 s).mem addr.toNat (effectReg s 4 p)) := by
  simp only [effect, bind_eq_ok, readReg_advanceIp_ok, storeWord_ok]
  constructor
  · rintro ⟨_, ⟨p, hp, rfl⟩, in_range, rfl⟩; exact ⟨p, hp, in_range, rfl⟩
  · rintro ⟨p, hp, in_range, rfl⟩; exact ⟨_, ⟨p, hp, rfl⟩, in_range, rfl⟩

theorem effect_movMemReg {addr : Word} {d : RegIx} :
    effect (.movMemReg addr d) s = .ok t ↔ ∃ r, addr.toNat + 2 ≤ s.cfg.memLen ∧ regOf d = some r ∧
      t = (advanceIp 4 s).setReg r (wordAt s addr.toNat) := by
  simp only [effect, bind_eq_ok, loadWord_advanceIp_ok, writeReg_ok]
  constructor
  · rintro ⟨_, ⟨in_range, rfl⟩, r, hr, rfl⟩; exact ⟨r, in_range, hr, rfl⟩
  · rintro ⟨r, in_range, hr, rfl⟩; exact ⟨_, ⟨in_range, rfl⟩, r, hr, rfl⟩

theorem effect_addRegReg {a b : RegIx} :
    effect (.addRegReg a b) s = .ok t ↔ ∃ p q, regOf a = some p ∧ regOf b = some q ∧
      t = (advanceIp 3 s).setReg .acc (aluAdd (effectReg s 3 p) (effectReg s 3 q)) := by
  simp only [effect, bind_eq_ok, readReg_advanceIp_ok, pure_eq_ok]
  constructor
  · rintro ⟨_, ⟨p, hp, rfl⟩, _, ⟨q, hq, rfl⟩, rfl⟩; exact ⟨p, q, hp, hq, rfl⟩
  · rintro ⟨p, q, hp, hq, rfl⟩; exact ⟨_, ⟨p, hp, rfl⟩, _, ⟨q, hq, rfl⟩, rfl⟩

theorem effect_jmpNotEq (lit target : Word) (s : State) :
    effect (.jmpNotEq lit target) s =
      .ok (if lit = s.reg .acc then advanceIp 5 s else (advanceIp 5 s).setReg .ip target) := by
  simp [effect, aluEqual]

theorem effect_pop {d : RegIx} :
    effect (.pop d) s = .ok t ↔ ∃ r, (s.reg .sp + 2).toNat + 2 ≤ s.cfg.memLen ∧ regOf d = some r ∧
      t = ((advanceIp 2 s).setReg r (wordAt s (s.reg .sp + 2).toNat)).setReg .sp (s.reg .sp + 2) := by
  simp only [effect, bind_eq_ok, popAddress_advanceIp, loadWord_advanceIp_ok, writeReg_ok, pure_eq_ok]
  constructor
  · rintro ⟨_, ⟨in_range, rfl⟩, _, ⟨r, hr, rfl⟩, rfl⟩; exact ⟨r, in_range, hr, rfl⟩
  · rintro ⟨r, in_range, hr, rfl⟩; exact ⟨_, ⟨in_range, rfl⟩, _, ⟨r, hr, rfl⟩, rfl⟩

/-- Both push instructions, once they have their value, are the same push. -/
theorem effect_push {i : Instr} {v : Word} (h : pushedValue i s = some v) :
    effect i s = pushWord v (advanceIp (instrLength i.mnemonic) s) := by
  cases i with
  | pshLit lit => cases h; rfl
  | pshReg a =>
    obtain ⟨p, hp, rfl⟩ := Option.map_eq_some_iff.1 h
    simp only [effect, readReg_advanceIp_ok.2 ⟨p, hp, rfl⟩, ok_bind]
    rfl
  | movLitReg | movRegReg | movRegMem | movMemReg | addRegReg | jmpNotEq | pop => cases h

/-- A push instruction that completes had a value to push. -/
theorem pushedValue_of_effect_pshReg {a : RegIx} (h : effect (.pshReg a) s = .ok t) :
    ∃ v, pushedValue (.pshReg a) s = some v := by
  obtain ⟨_, hv, _⟩ := bind_eq_ok.1 h
  obtain ⟨p, hp, _⟩ := readReg_ok.1 hv
  exact ⟨_, Option.map_eq_some_iff.2 ⟨p, hp, rfl⟩⟩

theorem pushWord_advanceIp_ok {n : Nat} {v : Word} :
    pushWord v (advanceIp n s) = .ok t ↔ (s.reg .sp).toNat + 2 ≤ s.cfg.memLen ∧
      t = ((advanceIp n s).setMem (memSet16 (advanceIp n s).mem (s.reg .sp).toNat v)).setReg .sp (s.reg .sp - 2) :=
  pushWord_ok

/-! ### What a completed effect keeps -/

/-- The frame of an instruction: the configuration and the status, the registers outside `writtenRegs`, and memory but
for the word at the store address, which is inside the buffer. -/
structure Effected (i : Instr) (s t : State) : Prop where
  cfg : t.cfg = s.cfg
  status : t.status = s.status
  reg : ∀ r, r ≠ .ip → r ∉ writtenRegs i → t.reg r = s.reg r
  mem : (storeAddress i s = none ∧ t.mem = s.mem) ∨
    ∃ a v, storeAddress i s = some a ∧ a.toNat + 2 ≤ s.cfg.memLen ∧ t.mem = memSet16 s.mem a.toNat v

theorem effected_push {i : Instr} {v : Word} (hi : storeAddress i s = some (s.reg .sp)) (hw : .sp ∈ writtenRegs i)
    {n : Nat} (h : pushWord v (advanceIp n s) = .ok t) : Effected i s t := by
  obtain ⟨in_range, rfl⟩ := pushWord_advanceIp_ok.1 h
  refine ⟨rfl, rfl, fun r hip hr => ?_, .inr ⟨_, v, hi, in_range, rfl⟩⟩
  have hsp : r ≠ .sp := fun hsp => hr (hsp ▸ hw)
  simp [hip, hsp]

theorem reg_after_write {r q : RegName} (n : Nat) (v : Word) (hip : q ≠ .ip) (hq : q ≠ r) :
    ((advanceIp n s).setReg r v).reg q = s.reg q := by
  rw [State.reg_setReg, if_neg hq, advanceIp_reg, if_neg hip]

theorem ne_destination {d : RegIx} {r q : RegName} (hr : regOf d = some r) (hq : q ∉ (regOf d).toList) : q ≠ r := by
  rintro rfl
  simp [hr] at hq

theorem effect_effected {i : Instr} (h : effect i s = .ok t) : Effected i s t := by
  cases i with
  | movLitReg =>
    obtain ⟨r, hr, rfl⟩ := effect_movLitReg.1 h
    exact ⟨rfl, rfl, fun q hip hq => reg_after_write 4 _ hip (ne_destination hr hq), .inl ⟨rfl, rfl⟩⟩
  | movRegReg =>
    obtain ⟨_, r, _, hr, rfl⟩ := effect_movRegReg.1 h
    exact ⟨rfl, rfl, fun q hip hq => reg_after_write 3 _ hip (ne_destination hr hq), .inl ⟨rfl, rfl⟩⟩
  | movRegMem =>
    obtain ⟨_, _, in_range, rfl⟩ := effect_movRegMem.1 h
    exact ⟨rfl, rfl, fun q hip _ => (advanceIp_reg 4 s q).trans (if_neg hip), .inr ⟨_, _, rfl, in_range, rfl⟩⟩
  | movMemReg =>
    obtain ⟨r, _, hr, rfl⟩ := effect_movMemReg.1 h
    exact ⟨rfl, rfl, fun q hip hq => reg_after_write 4 _ hip (ne_destination hr hq), .inl ⟨rfl, rfl⟩⟩
  | addRegReg =>
    obtain ⟨_, _, _, _, rfl⟩ := effect_addRegReg.1 h
    exact ⟨rfl, rfl, fun q hip hq => reg_after_write 3 _ hip (List.ne_of_not_mem_cons hq), .inl ⟨rfl, rfl⟩⟩
  | jmpNotEq lit target =>
    rw [effect_jmpNotEq] at h
    cases h
    split
    · exact ⟨rfl, rfl, fun q hip _ => (advanceIp_reg 5 s q).trans (if_neg hip), .inl ⟨rfl, rfl⟩⟩
    · exact ⟨rfl, rfl, fun q hip _ => reg_after_write 5 _ hip hip, .inl ⟨rfl, rfl⟩⟩
  | pshLit => exact effected_push rfl (by simp [writtenRegs]) h
  | pshReg =>
    obtain ⟨v, hv⟩ := pushedValue_of_effect_pshReg h
    exact effected_push rfl (by simp [writtenRegs]) (effect_push hv ▸ h)
  | pop =>
    obtain ⟨r, _, hr, rfl⟩ := effect_pop.1 h
    refine ⟨rfl, rfl, fun q hip hq => ?_, .inl ⟨rfl, rfl⟩⟩
    rw [State.reg_setReg, if_neg (List.ne_of_not_mem_cons hq)]
    exact reg_after_write 2 _ hip (ne_destination hr (List.not_mem_of_not_mem_cons hq))

/-! ### The instructions complete -/

/-- Settles O25: the effect answers, and one register is written after the advance of `ip`. -/
theorem movRegRegCopiesTheSource : Obligations.MovRegRegCopiesTheSource := fun s _ _ p r hp hr =>
  ⟨_, exec_of_effect_ok (effect_movRegReg.2 ⟨p, r, hp, hr, rfl⟩), becomes_setReg (becomes_advanceIp 3 s) _ _⟩

/-- Settles O26: the effect answers, and one word is stored after the advance of `ip`. -/
theorem movRegMemStoresTheSource : Obligations.MovRegMemStoresTheSource := fun s _ _ p hm hp in_range =>
  ⟨_, exec_of_effect_ok (effect_movRegMem.2 ⟨p, hp, in_range, rfl⟩),
    becomes_memSet16 hm (becomes_advanceIp 4 s) rfl _ _⟩

/-- Settles O27: the load answers, and one register is written. -/
theorem movMemRegLoadsTheWord : Obligations.MovMemRegLoadsTheWord := fun s _ _ r in_range hr =>
  ⟨_, exec_of_effect_ok (effect_movMemReg.2 ⟨r, in_range, hr, rfl⟩), becomes_setReg (becomes_advanceIp 4 s) _ _⟩

/-- Settles O28: both reads answer, and the adder takes the sum modulo `2^16`. -/
theorem addRegRegAddsModulo : Obligations.AddRegRegAddsModulo := by
  intro s a b p q hp hq
  refine ⟨_, exec_of_effect_ok (effect_addRegReg.2 ⟨p, q, hp, hq, rfl⟩), ?_,
    becomes_own_value (becomes_setReg (becomes_advanceIp 3 s) _ _)⟩
  rw [State.reg_setReg, if_pos rfl, aluAdd, BitVec.toNat_ofNat]

/-- Settles O29: the comparator decides between the advance of `ip` and the target. -/
theorem jmpNotEqJumpsExactlyWhenDifferent : Obligations.JmpNotEqJumpsExactlyWhenDifferent := by
  intro s lit target
  refine ⟨_, exec_of_effect_ok (effect_jmpNotEq lit target s), ?_⟩
  by_cases h : lit = s.reg .acc
  · simpa [h] using becomes_advanceIp 5 s
  · simpa [h] using becomes_setReg (becomes_advanceIp 5 s) .ip target

/-- A push, of the literal or of a register: the slot at the old `sp` holds the value, and `sp` is 2 lower. -/
theorem exec_push {i : Instr} {v : Word} (hm : Memory.wf s.mem) (hv : pushedValue i s = some v)
    (in_range : (s.reg .sp).toNat + 2 ≤ s.cfg.memLen) :
    ∃ t, exec i s = .next t ∧
      Becomes s t (fun q => if q = .sp then s.reg .sp - 2 else effectReg s (BitVec.ofNat 16 (instrLength i.mnemonic)) q)
        (storedBytes s (s.reg .sp).toNat v) :=
  ⟨_, exec_of_effect_ok ((effect_push hv).trans (pushWord_advanceIp_ok.2 ⟨in_range, rfl⟩)),
    becomes_setReg (becomes_memSet16 hm (becomes_advanceIp _ s) rfl _ _) _ _⟩

theorem exec_push_fault {i : Instr} {v : Word} (hv : pushedValue i s = some v)
    (outside : s.cfg.memLen < (s.reg .sp).toNat + 2) :
    exec i s = .next (takeFault (.memory .write (s.reg .sp).toNat 2) s) :=
  exec_of_effect_error ((effect_push hv).trans (pushWord_error.2 ⟨outside, rfl⟩))

theorem pushedValue_pshReg {a : RegIx} {p : RegName} (hp : regOf a = some p) :
    pushedValue (.pshReg a) s = some (effectReg s 2 p) := by
  simp only [pushedValue, hp, Option.map_some]

/-- Settles O31: a push whose value is the register, read with `ip` past the instruction. -/
theorem pshRegPushesTheSource : Obligations.PshRegPushesTheSource := fun _ _ _ hm hp in_range =>
  exec_push hm (pushedValue_pshReg hp) in_range

/-- Settles O32: the destination is written first and then `sp`. -/
theorem popLoadsAndRaisesSp : Obligations.PopLoadsAndRaisesSp := fun s _ r in_range hr =>
  ⟨_, exec_of_effect_ok (effect_pop.2 ⟨r, in_range, hr, rfl⟩),
    becomes_setReg (becomes_setReg (becomes_advanceIp 2 s) _ _) _ _⟩

/-- Settles O40: the value pushed is read with `ip` past the instruction and `sp` not yet lowered. -/
theorem pshRegReadsBeforeTheDecrement : Obligations.PshRegReadsBeforeTheDecrement := by
  intro s hm in_range
  have pushed := pshRegPushesTheSource s
  obtain ⟨t, ht, hreg, hbyte, _⟩ := pushed 10 .sp hm rfl in_range
  obtain ⟨u, hu, _, hbyte', _⟩ := pushed 0 .ip hm rfl in_range
  obtain ⟨w, hw, hreg'', hbyte'', _⟩ := pushed 11 .fp hm rfl in_range
  exact ⟨⟨t, ht, wordAt_of_stored hbyte, hreg .sp⟩, ⟨u, hu, wordAt_of_stored hbyte'⟩,
    ⟨w, hw, wordAt_of_stored hbyte'', hreg'' .fp⟩⟩

/-- Settles O41: both writes are to `sp`, and the second one stays. -/
theorem popSpThrowsTheValueAway : Obligations.PopSpThrowsTheValueAway := by
  intro s in_range
  obtain ⟨t, ht, hreg, rest⟩ := popLoadsAndRaisesSp s 10 .sp in_range rfl
  refine ⟨t, ht, fun r => (hreg r).trans ?_, rest⟩
  by_cases h : r = .sp <;> simp [h]

/-- Settles O36: the rule of each instruction, for the register `ip`. -/
theorem rawIndexZeroIsTheProgramCounter : Obligations.RawIndexZeroIsTheProgramCounter := by
  intro s
  refine ⟨fun lit => ?_, fun a p hp => ?_, fun addr in_range => ?_, fun in_range => ?_, fun a b p q hp hq => ?_,
    fun d r hr => ?_, fun hm => ⟨fun addr in_range => ?_, fun in_range => ?_⟩⟩
  · exact ⟨_, exec_of_effect_ok (effect_movLitReg.2 ⟨.ip, rfl, rfl⟩), rfl, rfl⟩
  · obtain ⟨t, ht, hreg, _, hst, _⟩ := movRegRegCopiesTheSource s a 0 p .ip hp rfl
    exact ⟨t, ht, hst, hreg .ip⟩
  · obtain ⟨t, ht, hreg, _, hst, _⟩ := movMemRegLoadsTheWord s addr 0 .ip in_range rfl
    exact ⟨t, ht, hst, hreg .ip⟩
  · obtain ⟨t, ht, hreg, _, hst, _⟩ := popLoadsAndRaisesSp s 0 .ip in_range rfl
    exact ⟨t, ht, hst, hreg .ip, hreg .sp⟩
  · obtain ⟨t, ht, _, hreg, _⟩ := addRegRegAddsModulo s a b p q hp hq
    exact ⟨t, ht, hreg .ip⟩
  · obtain ⟨t, ht, hreg, _⟩ := movRegRegCopiesTheSource s 0 d .ip r rfl hr
    exact ⟨t, ht, (hreg r).trans (if_pos rfl)⟩
  · obtain ⟨t, ht, _, hbyte, _⟩ := movRegMemStoresTheSource s 0 addr .ip hm rfl in_range
    exact ⟨t, ht, wordAt_of_stored hbyte⟩
  · obtain ⟨t, ht, _, hbyte, _⟩ := pshRegPushesTheSource s 0 .ip hm rfl in_range
    exact ⟨t, ht, wordAt_of_stored hbyte⟩

/-- Settles O7: a MOV_REG_MEM that completes has stored the word, and the fetches read its two bytes. -/
theorem sixteenBitAccessesAreBigEndian : Obligations.SixteenBitAccessesAreBigEndian := by
  refine ⟨fun s a v h => ?_, fun s t a v hm h => ?_, fun s t v h => ?_, ?_⟩
  · rw [(memRead16_ok.1 h).2, memGet16_eq_wordAt, wordAt_toNat]
  · rw [(memWrite16_ok.1 h).2, byte_memSet16 hm, byte_memSet16 hm, storedBytes_hi, storedBytes_lo]
    exact ⟨hiByte_toNat v, loByte_toNat v⟩
  · obtain ⟨_, rfl, _⟩ := fetch16_ok.1 h
    rw [memGet16_eq_wordAt, wordAt_toNat]
  · intro s t u w r q a b c hm _ hq ht completed hb hc no_wrap
    rw [exec_eq_complete] at ht
    rcases complete_next.1 ht with ok | ⟨e, _, rfl⟩
    · obtain ⟨p, hp, _, rfl⟩ := effect_movRegMem.1 ok
      obtain rfl : p = q := Option.some.inj (hp.symm.trans hq)
      obtain ⟨_, rfl, _⟩ := fetch8_ok.1 hb
      obtain ⟨_, rfl, _⟩ := fetch8_ok.1 hc
      have next_byte : (a + 1).toNat = a.toNat + 1 := by
        rw [BitVec.toNat_add]
        exact Nat.mod_eq_of_lt no_wrap
      simp only [State.reg_setReg, if_true, State.setReg_mem, State.setMem_mem, advanceIp_mem, next_byte,
        memGet_memSet16 _ _ _ _ hm, if_neg (Nat.succ_ne_self _)]
      exact ⟨hiByte_toNat _, loByte_toNat _⟩
    · simp at completed

end

end Sys2Proof.Proofs.Effects
end

section
/-! Which fault an instruction ends in, and what a fault leaves (60_exceptions.md R182, R185, R187). The accesses are
followed one by one: `Raises` says that a computation stops at the first of a list of accesses that fails, and
`FailsOnly` what the access it stops at is like. -/

namespace Sys2Proof.Proofs.Faults
open Sys2Proof Sys2Proof.Machine Sys2Proof.Proofs.Sequence Sys2Proof.Proofs.Updates Sys2Proof.Proofs.Primitives
  Sys2Proof.Proofs.Effects

/-! ### The first failing access -/

/-- In a step that starts in `s`, the computation stops with the first fault of the list, and answers if there is
none. -/
def Raises {α : Type} (s : State) (x : Except Abort α) (l : List (Option Fault)) : Prop :=
  (∀ a, x = .ok a → firstFault l = none) ∧ ∀ e, x = .error e → firstFault l = some (faultRecord (s.reg .ip) e)

section
variable {α β : Type} {s t : State}

theorem firstFault_append (l k : List (Option Fault)) : firstFault (l ++ k) = (firstFault l).or (firstFault k) :=
  List.findSome?_append

theorem firstFault_singleton (o : Option Fault) : firstFault [o] = o := by cases o <;> rfl

theorem raises_ok (a : α) {l : List (Option Fault)} (h : firstFault l = none) : Raises s (.ok a) l :=
  ⟨fun _ _ => h, fun _ h => nomatch h⟩

theorem raises_done (a : α) : Raises s (.ok a) [] := raises_ok a rfl

theorem raises_error {e : Abort} {l : List (Option Fault)} (h : firstFault l = some (faultRecord (s.reg .ip) e)) :
    Raises s (.error e : Except Abort α) l :=
  ⟨fun _ h => (nomatch h), fun _ he => Except.error.inj he ▸ h⟩

theorem raises_bind {x : Except Abort α} {f : α → Except Abort β} {l k : List (Option Fault)} (hx : Raises s x l)
    (hf : ∀ a, x = .ok a → Raises s (f a) k) : Raises s (x >>= f) (l ++ k) := by
  obtain ⟨hok, herror⟩ := hx
  refine ⟨fun b hb => ?_, fun e he => ?_⟩
  · obtain ⟨a, ha, hb⟩ := bind_eq_ok.1 hb
    rw [firstFault_append, hok a ha, (hf a ha).1 b hb]
    rfl
  · rcases bind_eq_error.1 he with he | ⟨a, ha, he⟩
    · rw [firstFault_append, herror e he]
      rfl
    · rw [firstFault_append, hok a ha, (hf a ha).2 e he]
      rfl

/-- One access that fails under one condition, with one record. -/
theorem raises_access {x : Except Abort α} {P : Prop} [Decidable P] {abort : Abort}
    (h : ∀ e, x = .error e ↔ P ∧ e = abort) :
    Raises s x [if P then some (faultRecord (s.reg .ip) abort) else none] := by
  refine ⟨fun a ha => ?_, fun e he => ?_⟩
  · have hP : ¬P := fun hP => by have := (h abort).2 ⟨hP, rfl⟩; simp_all
    simp [firstFault, hP]
  · obtain ⟨hP, rfl⟩ := (h e).1 he
    simp [firstFault, hP]

theorem raises_readReg (i : RegIx) (t : State) : Raises s (readReg i t) [registerFault s i] :=
  raises_access fun _ => readReg_error

theorem raises_writeReg (i : RegIx) (v : Word) (t : State) : Raises s (writeReg i v t) [registerFault s i] :=
  raises_access fun _ => writeReg_error

theorem raises_loadWord (a : Word) (ht : t.cfg = s.cfg) : Raises s (loadWord a t) [memoryFault s a 2] :=
  raises_access fun _ => ht ▸ loadWord_error

theorem raises_storeWord (a v : Word) (ht : t.cfg = s.cfg) : Raises s (storeWord a v t) [memoryFault s a 2] :=
  raises_access fun _ => ht ▸ storeWord_error

theorem raises_pushWord (v : Word) (ht : t.cfg = s.cfg) : Raises s (pushWord v t) [memoryFault s (t.reg .sp) 2] :=
  raises_access fun _ => ht ▸ pushWord_error

/-- The effect of an instruction stops at the first failing access of its row in the table of faults. -/
theorem effect_raises (i : Instr) (s : State) : Raises s (effect i s) (effectFaults i s) := by
  cases i with
  | movLitReg => exact raises_writeReg _ _ _
  | movRegReg => exact raises_bind (raises_readReg _ _) fun _ _ => raises_writeReg _ _ _
  | movRegMem => exact raises_bind (raises_readReg _ _) fun _ _ => raises_storeWord _ _ rfl
  | movMemReg => exact raises_bind (raises_loadWord _ rfl) fun _ _ => raises_writeReg _ _ _
  | addRegReg =>
    exact raises_bind (raises_readReg _ _) fun _ _ => raises_bind (raises_readReg _ _) fun _ _ => raises_done _
  | jmpNotEq => exact raises_done _
  | pshLit => exact raises_pushWord _ rfl
  | pshReg => exact raises_bind (raises_readReg _ _) fun _ _ => raises_pushWord _ rfl
  | pop =>
    have load : Raises s (loadWord (popAddress (advanceIp 2 s)) (advanceIp 2 s)) [memoryFault s (s.reg .sp + 2) 2] :=
      popAddress_advanceIp 2 s ▸ raises_loadWord _ rfl
    exact raises_bind load fun _ _ => raises_bind (raises_writeReg _ _ _) fun _ _ => raises_done _

/-- The end of a step, from what its statements raise. -/
theorem complete_status {x : Except Abort State} {l : List (Option Fault)} (hx : Raises s x l)
    (hst : ∀ t, x = .ok t → t.status = s.status) :
    ∃ t, complete s x = .next t ∧ t.status = statusAfter s (firstFault l) := by
  cases x with
  | ok t => exact ⟨t, rfl, by rw [hx.1 t rfl, hst t rfl]; rfl⟩
  | error e => exact ⟨takeFault e s, rfl, by rw [hx.2 e rfl, takeFault_status]; rfl⟩

/-- Settles O33: the effect raises what its row of the table says, and a completed one keeps the status. -/
theorem effectFaultsAsTheTableSays : Obligations.EffectFaultsAsTheTableSays := by
  intro i s
  rw [exec_eq_complete]
  exact complete_status (effect_raises i s) fun _ h => (effect_effected h).status

/-! ### The access a computation stops at -/

/-- Every access the computation can stop at has the property `P`. -/
def FailsOnly (P : Abort → Prop) (x : Except Abort α) : Prop := ∀ e, x = .error e → P e

theorem failsOnly_ok {P : Abort → Prop} (a : α) : FailsOnly P (.ok a) := fun _ h => nomatch h

theorem failsOnly_bind {P : Abort → Prop} {x : Except Abort α} {f : α → Except Abort β} (hx : FailsOnly P x)
    (hf : ∀ a, FailsOnly P (f a)) : FailsOnly P (x >>= f) := by
  intro e he
  rcases bind_eq_error.1 he with he | ⟨a, _, he⟩
  · exact hx e he
  · exact hf a e he

/-- If the access is a store, it is of a word, at the address `o`. -/
def StoresAt (o : Option Word) (e : Abort) : Prop :=
  ∀ a n, e = .memory .write a n → n = 2 ∧ ∃ b, o = some b ∧ b.toNat = a

variable {o : Option Word}

theorem readReg_storesAt (i : RegIx) (t : State) : FailsOnly (StoresAt o) (readReg i t) := by
  rintro e he _ _ rfl
  simp [readReg_error] at he

theorem writeReg_storesAt (i : RegIx) (v : Word) (t : State) : FailsOnly (StoresAt o) (writeReg i v t) := by
  rintro e he _ _ rfl
  simp [writeReg_error] at he

theorem loadWord_storesAt (a : Word) (t : State) : FailsOnly (StoresAt o) (loadWord a t) := by
  rintro e he _ _ rfl
  simp [loadWord_error] at he

theorem storeWord_storesAt (a v : Word) (t : State) : FailsOnly (StoresAt (some a)) (storeWord a v t) := by
  rintro e he _ _ rfl
  obtain ⟨_, ⟨⟩⟩ := storeWord_error.1 he
  exact ⟨rfl, a, rfl, rfl⟩

theorem pushWord_storesAt (v : Word) (t : State) : FailsOnly (StoresAt (some (t.reg .sp))) (pushWord v t) := by
  rintro e he _ _ rfl
  obtain ⟨_, ⟨⟩⟩ := pushWord_error.1 he
  exact ⟨rfl, _, rfl, rfl⟩

/-- An instruction stops in a store at its store address only. -/
theorem effect_storesAt (i : Instr) (s : State) : FailsOnly (StoresAt (storeAddress i s)) (effect i s) := by
  cases i with
  | movLitReg => exact writeReg_storesAt _ _ _
  | movRegReg => exact failsOnly_bind (readReg_storesAt _ _) fun _ => writeReg_storesAt _ _ _
  | movRegMem => exact failsOnly_bind (readReg_storesAt _ _) fun _ => storeWord_storesAt _ _ _
  | movMemReg => exact failsOnly_bind (loadWord_storesAt _ _) fun _ => writeReg_storesAt _ _ _
  | addRegReg =>
    exact failsOnly_bind (readReg_storesAt _ _) fun _ => failsOnly_bind (readReg_storesAt _ _) fun _ => failsOnly_ok _
  | jmpNotEq => exact failsOnly_ok _
  | pshLit => exact pushWord_storesAt _ (advanceIp 3 s)
  | pshReg => exact failsOnly_bind (readReg_storesAt _ _) fun _ => pushWord_storesAt _ (advanceIp 2 s)
  | pop =>
    exact failsOnly_bind (loadWord_storesAt _ _) fun _ => failsOnly_bind (writeReg_storesAt _ _ _) fun _ =>
      failsOnly_ok _

/-! ### What a fault leaves -/

/-- A fault changes no byte, but for the last one when it was a store there that failed. -/
theorem byte_takeFault {e : Abort} (hm : Memory.wf s.mem) (he : StoresAt o e) (a : Nat) :
    (takeFault e s).byte a = s.byte a ∨
      (a + 1 = s.cfg.memLen ∧ e = .memory .write a 2 ∧ ∃ b, o = some b ∧ b.toNat = a) := by
  by_cases store : ∃ c n, e = .memory .write c n
  · obtain ⟨c, n, rfl⟩ := store
    obtain ⟨rfl, hb⟩ := he c n rfl
    by_cases last : a = c ∧ c + 1 = s.cfg.memLen
    · obtain ⟨rfl, hc⟩ := last
      exact .inr ⟨hc, rfl, hb⟩
    · exact .inl (memGet_memAfterFault_store s c a hm (by tauto))
  · exact .inl (congrArg (memGet · a) (memAfterFault_of_not_write fun c n h => store ⟨c, n, h⟩))

/-- Settles O34: a completed effect by its frame, a fault because it writes no register but `ip`. -/
theorem onlyTheWrittenRegistersChange : Obligations.OnlyTheWrittenRegistersChange := by
  intro i s t r h hip hr
  rw [exec_eq_complete] at h
  rcases complete_next.1 h with ok | ⟨e, _, rfl⟩
  · exact (effect_effected ok).reg r hip hr
  · exact takeFault_reg e s hip

/-- Settles O35: a completed effect stores at the store address only, and so does one that faults in a store. -/
theorem onlyTheStoredBytesChange : Obligations.OnlyTheStoredBytesChange := by
  intro i s t hm h
  rw [exec_eq_complete] at h
  rcases complete_next.1 h with ok | ⟨e, error, rfl⟩
  · rcases (effect_effected ok).mem with ⟨none, same⟩ | ⟨c, v, stored, _, written⟩
    · exact ⟨fun _ b => congrArg (memGet · b) same, fun a ha => by simp [none] at ha⟩
    · refine ⟨fun none => by simp [stored] at none, fun a ha b hb hb' => ?_⟩
      obtain rfl : c = a := Option.some.inj (stored.symm.trans ha)
      exact (congrArg (memGet · b) written).trans ((byte_memSet16 hm _ b v).trans (storedBytes_other s v hb hb'))
  · have unchanged := byte_takeFault hm (effect_storesAt i s e error)
    refine ⟨fun none b => ?_, fun a ha b hb _ => ?_⟩
    · exact (unchanged b).resolve_right fun ⟨_, _, c, hc, _⟩ => by simp [none] at hc
    · exact (unchanged b).resolve_right fun ⟨_, _, c, hc, hcb⟩ => hb (by
        rw [← hcb, Option.some.inj (ha.symm.trans hc)])

theorem readReg_inBank {i : RegIx} (h : i.toNat < 12) (t : State) : ∃ v, readReg i t = .ok v := by
  obtain ⟨r, hr⟩ := regOf_inBank h
  exact ⟨_, readReg_ok.2 ⟨r, hr, rfl⟩⟩

/-- The effect that comes to a raw index outside the bank stops there. -/
theorem effect_of_reachesIndex {x : RegIx} (hx : 12 ≤ x.toNat) {i : Instr} (h : reachesIndex x i s) :
    effect i s = .error (.register x) := by
  have reads (t : State) : readReg x t = .error (.register x) := readReg_error.2 ⟨hx, rfl⟩
  have writes (v : Word) (t : State) : writeReg x v t = .error (.register x) := writeReg_error.2 ⟨hx, rfl⟩
  cases i with
  | movLitReg => cases h; exact writes _ _
  | movRegReg =>
    rcases h with rfl | ⟨hsrc, rfl⟩
    · exact bind_eq_error.2 (.inl (reads _))
    · obtain ⟨v, hv⟩ := readReg_inBank hsrc (advanceIp 3 s)
      exact bind_eq_error.2 (.inr ⟨v, hv, writes _ _⟩)
  | movRegMem => cases h; exact bind_eq_error.2 (.inl (reads _))
  | movMemReg =>
    obtain ⟨in_range, rfl⟩ := h
    exact bind_eq_error.2 (.inr ⟨_, loadWord_advanceIp_ok.2 ⟨in_range, rfl⟩, writes _ _⟩)
  | addRegReg =>
    rcases h with rfl | ⟨hfst, rfl⟩
    · exact bind_eq_error.2 (.inl (reads _))
    · obtain ⟨v, hv⟩ := readReg_inBank hfst (advanceIp 3 s)
      exact bind_eq_error.2 (.inr ⟨v, hv, bind_eq_error.2 (.inl (reads _))⟩)
  | jmpNotEq | pshLit => exact h.elim
  | pshReg => cases h; exact bind_eq_error.2 (.inl (reads _))
  | pop =>
    obtain ⟨in_range, rfl⟩ := h
    exact bind_eq_error.2 (.inr ⟨_, loadWord_advanceIp_ok.2 ⟨popAddress_advanceIp 2 s ▸ in_range, rfl⟩,
      bind_eq_error.2 (.inl (writes _ _))⟩)

theorem step_of_faulted {f : Fault} (h : s.status = .faulted f) : step s = .refused (.instanceFaulted f) := by
  simp only [step, h]

/-- Settles O11: the access is the first that fails, so it is the one the step ends in. -/
theorem outOfBankIndexFaultsOnAccess : Obligations.OutOfBankIndexFaultsOnAccess := by
  intro x v s hx
  have offset_le := x.isLt
  refine ⟨_, _, readReg_error.2 ⟨hx, rfl⟩, writeReg_error.2 ⟨hx, rfl⟩, rfl, rfl, by omega, by omega, fun i hi => ?_,
    fun in_range byte => ⟨_, fetch8_ok.2 ⟨in_range, byte.symm, rfl⟩⟩⟩
  exact ⟨_, exec_of_effect_error (effect_of_reachesIndex hx hi), rfl, step_of_faulted rfl,
    fun r hr => takeFault_reg _ s hr, fun _ => rfl⟩

/-! ### The state stays well formed -/

theorem takeFault_wf (e : Abort) (h : s.wf) : (takeFault e s).wf := by
  obtain ⟨hcfg, hmem, hin⟩ := h
  exact ⟨hcfg, memAfterFault_wf e hmem, memAfterFault_within e hin⟩

theorem complete_wf {x : Except Abort State} (h : s.wf) (hx : ∀ u, x = .ok u → u.wf) (ht : complete s x = .next t) :
    t.wf := by
  rcases complete_next.1 ht with ok | ⟨e, _, rfl⟩
  · exact hx t ok
  · exact takeFault_wf e h

theorem effect_wf {i : Instr} (h : s.wf) (hi : effect i s = .ok t) : t.wf := by
  obtain ⟨hcfg, hmem, hin⟩ := h
  obtain ⟨cfg, _, _, mem⟩ := effect_effected hi
  unfold State.wf
  rw [cfg]
  rcases mem with ⟨_, same⟩ | ⟨a, v, _, in_range, written⟩
  · rw [same]
    exact ⟨hcfg, hmem, hin⟩
  · rw [written]
    exact ⟨hcfg, memSet16_wf _ v hmem, memSet16_within v hin in_range⟩

theorem exec_wf {i : Instr} (h : s.wf) (ht : exec i s = .next t) : t.wf :=
  complete_wf h (fun _ => effect_wf h) (exec_eq_complete i s ▸ ht)

/-! ### Pushes and pops one after another -/

/-- A push at `0xFFFE` needs the whole 64K: it completes exactly then, and overwrites the top two bytes. -/
theorem push_at_FFFE {i : Instr} {v : Word} (h : s.wf) (hst : s.status = .running) (hv : pushedValue i s = some v)
    (hsp : s.reg .sp = 0xFFFE) {t : State} (ht : exec i s = .next t) :
    (t.status = .running ↔ s.cfg.memLen = 0x10000) ∧ (s.cfg.memLen = 0x10000 → wordAt t 0xFFFE = v) := by
  obtain ⟨⟨_, le_64K, _⟩, hm, _⟩ := h
  have address : (s.reg .sp).toNat = 0xFFFE := by rw [hsp]; rfl
  by_cases whole : s.cfg.memLen = 0x10000
  · obtain ⟨u, hu, _, hbyte, status, _⟩ := exec_push hm hv (by omega)
    obtain rfl : u = t := Host.Outcome.next.inj (hu.symm.trans ht)
    rw [address] at hbyte
    exact ⟨iff_of_true (status.trans hst) whole, fun _ => wordAt_of_stored hbyte⟩
  · obtain rfl := Host.Outcome.next.inj ((exec_push_fault hv (by omega)).symm.trans ht)
    exact ⟨iff_of_false (by simp) whole, fun h => absurd h whole⟩

/-- A push at `0xFFFF` faults in every memory: its second byte would be at `0x10000`. -/
theorem push_at_FFFF {i : Instr} {v : Word} (h : s.wf) (hv : pushedValue i s = some v) (hsp : s.reg .sp = 0xFFFF)
    {t : State} (ht : exec i s = .next t) : t.status = .faulted (.outOfBounds .memory 0xFFFF 2 (s.reg .ip)) := by
  obtain ⟨⟨_, le_64K, _⟩, _, _⟩ := h
  have address : (s.reg .sp).toNat = 0xFFFF := by rw [hsp]; rfl
  obtain rfl := Host.Outcome.next.inj ((exec_push_fault hv (by omega)).symm.trans ht)
  rw [takeFault_status, address]
  rfl

/-- Settles O39: the second push is one at `0xFFFE` or `0xFFFF`, in a state that is well formed again. -/
theorem pushDecrementWraps : Obligations.PushDecrementWraps := by
  intro s i v h hst hv in_range
  obtain ⟨t, ht, hreg, hbyte, status, hcfg, _⟩ := exec_push h.2.1 hv in_range
  have sp : t.reg .sp = s.reg .sp - 2 := hreg .sp
  have running := status.trans hst
  have wf := exec_wf h ht
  refine ⟨t, ht, running, wordAt_of_stored hbyte, sp, fun zero => by rw [sp, zero]; rfl,
    fun one => by rw [sp, one]; rfl, fun j w hw => ?_⟩
  obtain ⟨u, hu, _⟩ := effectFaultsAsTheTableSays j t
  exact ⟨u, hu, fun hsp => hcfg ▸ push_at_FFFE wf running hw hsp hu, fun hsp => push_at_FFFF wf hw hsp hu⟩

/-- Settles O42: the pop address is the address pushed to, the wrap of the one undoing that of the other. -/
theorem pushThenPopRoundTrip : Obligations.PushThenPopRoundTrip := by
  intro s v d r h hst hd hsp
  obtain ⟨⟨two_le, _, _⟩, hm, _⟩ := h
  have in_range : (s.reg .sp).toNat + 2 ≤ s.cfg.memLen := by omega
  have pushed : pushedValue (.pshLit v) s = some v := rfl
  obtain ⟨t, ht, hreg, hbyte, status, hcfg, _⟩ := exec_push hm pushed in_range
  have lowered : t.reg .sp = s.reg .sp - 2 := hreg .sp
  have slot : t.reg .sp + 2 = s.reg .sp := by rw [lowered, BitVec.sub_add_cancel]
  obtain ⟨u, hu, hreg', _, status', _⟩ := popLoadsAndRaisesSp t d r (by rw [slot, hcfg]; exact in_range) hd
  refine ⟨t, u, ht, status.trans hst, hu, status'.trans (status.trans hst), (hreg' .sp).trans slot, fun hr => ?_⟩
  have popped : u.reg r = wordAt t (t.reg .sp + 2).toNat := (hreg' r).trans ((if_neg hr).trans (if_pos rfl))
  rw [popped, slot, wordAt_of_stored hbyte]

end

end Sys2Proof.Proofs.Faults
end

section
/-! The fetch against the decoder (40_cycle.md R100 to R104): operand by operand, the fetch reads from memory what the
decoder reads from the list of the bytes at `ip`, or stops at the first field that is outside memory. -/

namespace Sys2Proof.Proofs.Fetch
open Sys2Proof Sys2Proof.Machine Sys2Proof.Proofs.Sequence Sys2Proof.Proofs.OpcodeByte Sys2Proof.Proofs.Encoding
  Sys2Proof.Proofs.Updates Sys2Proof.Proofs.Effects Sys2Proof.Proofs.Faults

section
variable {s : State}

/-! ### Addresses and bytes from `ip` on -/

theorem add_ofNat_add (a : Word) (k n : Nat) :
    a + BitVec.ofNat 16 k + BitVec.ofNat 16 n = a + BitVec.ofNat 16 (k + n) := by
  rw [BitVec.ofNat_add, BitVec.add_assoc]

theorem bytesAt_add (s : State) (a : Word) (m n : Nat) :
    bytesAt s a (m + n) = bytesAt s a m ++ bytesAt s (a + BitVec.ofNat 16 m) n := by
  induction m generalizing a with
  | zero => simp [bytesAt]
  | succ m ih =>
    have step : a + 1 + BitVec.ofNat 16 m = a + BitVec.ofNat 16 (m + 1) := by
      rw [Nat.add_comm m 1]
      exact add_ofNat_add a 1 m
    rw [Nat.add_right_comm, bytesAt, ih, step]
    rfl

theorem bytesAt_ip_succ (s : State) (k n : Nat) :
    bytesAt s (s.reg .ip + BitVec.ofNat 16 k) (n + 1) =
      s.byte (s.reg .ip + BitVec.ofNat 16 k).toNat :: bytesAt s (s.reg .ip + BitVec.ofNat 16 (k + 1)) n := by
  rw [← add_ofNat_add]
  rfl

/-- Two bytes that one access reads are the bytes at two addresses in a row: a word in range does not wrap. -/
theorem wordAt_eq_be16 {a : Word} (hL : s.cfg.memLen ≤ 0x10000) (h : a.toNat + 2 ≤ s.cfg.memLen) :
    wordAt s a.toNat = be16 (s.byte a.toNat) (s.byte (a + 1).toNat) := by
  have next_byte : (a + 1).toNat = a.toNat + 1 := by
    rw [BitVec.toNat_add]
    exact Nat.mod_eq_of_lt (by change a.toNat + 1 < 65536; omega)
  rw [next_byte]
  rfl

theorem memoryFault_eq_none {a : Word} {w : Nat} (h : a.toNat + w ≤ s.cfg.memLen) : memoryFault s a w = none :=
  if_neg (Nat.not_lt.2 h)

theorem memoryFault_eq_some {a : Word} {w : Nat} (h : s.cfg.memLen < a.toNat + w) :
    memoryFault s a w = some (.outOfBounds .memory a.toNat w (s.reg .ip)) := if_pos h

theorem firstFault_none_cons (l : List (Option Fault)) : firstFault (none :: l) = firstFault l := rfl

/-! ### The operand fields -/

/-- With `ip` on by `k` bytes, the reader `y` of a list answers, and the reader `x` of memory either answers the same
and has moved on over the fields of widths `ws`, or stops at the first of them that is outside memory. -/
def Fetches {α ε : Type} (s : State) (k : Nat) (ws : List Nat) (x : Except Abort (α × State))
    (y : Except ε (α × List Byte)) : Prop :=
  ∃ v rest, y = .ok (v, rest) ∧
    ((x = .ok (v, advanceIp (k + ws.sum) s) ∧
        firstFault (fetchFaults s (s.reg .ip + BitVec.ofNat 16 k) ws) = none) ∨
      ∃ e, x = .error e ∧
        firstFault (fetchFaults s (s.reg .ip + BitVec.ofNat 16 k) ws) = some (faultRecord (s.reg .ip) e))

variable {α β ε : Type} {k n : Nat} {ws : List Nat} {short : ε}

theorem fetches_done (v : α) (l : List Byte) :
    Fetches s k [] (pure (v, advanceIp k s)) (pure (v, l) : Except ε (α × List Byte)) :=
  ⟨v, l, rfl, .inl ⟨rfl, rfl⟩⟩

/-- One field in front: it is in range and read alike on both sides, or the fetch stops at it. -/
theorem fetches_cons {w : Nat} {b : β} {r : List Byte} {x : Except Abort (β × State)} {y : Except ε (β × List Byte)}
    {f : β × State → Except Abort (α × State)} {g : β × List Byte → Except ε (α × List Byte)} (hy : y = .ok (b, r))
    (hx : (s.reg .ip + BitVec.ofNat 16 k).toNat + w ≤ s.cfg.memLen → x = .ok (b, advanceIp (k + w) s))
    (hx' : s.cfg.memLen < (s.reg .ip + BitVec.ofNat 16 k).toNat + w →
      x = .error (.memory .read (s.reg .ip + BitVec.ofNat 16 k).toNat w))
    (hf : Fetches s (k + w) ws (f (b, advanceIp (k + w) s)) (g (b, r))) :
    Fetches s k (w :: ws) (x >>= f) (y >>= g) := by
  obtain ⟨v, rest, hg, hf⟩ := hf
  refine ⟨v, rest, by rw [hy, ok_bind, hg], ?_⟩
  rw [fetchFaults, add_ofNat_add, List.sum_cons, ← Nat.add_assoc]
  by_cases in_range : (s.reg .ip + BitVec.ofNat 16 k).toNat + w ≤ s.cfg.memLen
  · rwa [hx in_range, ok_bind, memoryFault_eq_none in_range, firstFault_none_cons]
  · have outside := Nat.lt_of_not_le in_range
    exact .inr ⟨_, by rw [hx' outside]; rfl, by rw [memoryFault_eq_some outside]; rfl⟩

theorem fetch_address (k : Nat) (s : State) : (advanceIp k s).reg .ip = s.reg .ip + BitVec.ofNat 16 k :=
  advanceIp_reg k s .ip

theorem fetches_byte {f : Byte × State → Except Abort (α × State)}
    {g : Byte × List Byte → Except ε (α × List Byte)}
    (hf : ∀ b, Fetches s (k + 1) ws (f (b, advanceIp (k + 1) s))
      (g (b, bytesAt s (s.reg .ip + BitVec.ofNat 16 (k + 1)) n))) :
    Fetches s k (1 :: ws) (fetch8 (advanceIp k s) >>= f)
      (takeByte short (bytesAt s (s.reg .ip + BitVec.ofNat 16 k) (n + 1)) >>= g) := by
  refine fetches_cons ?_ (fun in_range => ?_) (fun outside => ?_)
    (hf (s.byte (s.reg .ip + BitVec.ofNat 16 k).toNat))
  · rw [takeByte_ok, bytesAt_ip_succ]
  · exact fetch8_ok.2 ⟨by rwa [fetch_address], by rw [fetch_address]; rfl, (advanceIp_advanceIp k 1 s).symm⟩
  · rw [← fetch_address] at outside ⊢
    exact fetch8_error.2 ⟨outside, rfl⟩

theorem fetches_word (hL : s.cfg.memLen ≤ 0x10000) {f : Word × State → Except Abort (α × State)}
    {g : Word × List Byte → Except ε (α × List Byte)}
    (hf : ∀ v, Fetches s (k + 2) ws (f (v, advanceIp (k + 2) s))
      (g (v, bytesAt s (s.reg .ip + BitVec.ofNat 16 (k + 2)) n))) :
    Fetches s k (2 :: ws) (fetch16 (advanceIp k s) >>= f)
      (takeWord short (bytesAt s (s.reg .ip + BitVec.ofNat 16 k) (n + 2)) >>= g) := by
  refine fetches_cons ?_ (fun in_range => ?_) (fun outside => ?_)
    (hf (be16 (s.byte (s.reg .ip + BitVec.ofNat 16 k).toNat) (s.byte (s.reg .ip + BitVec.ofNat 16 (k + 1)).toNat)))
  · rw [takeWord_ok, hiByte_be16, loByte_be16, bytesAt_ip_succ, bytesAt_ip_succ]
  · refine fetch16_ok.2 ⟨by rwa [fetch_address], ?_, (advanceIp_advanceIp k 2 s).symm⟩
    rw [← add_ofNat_add, fetch_address]
    exact (wordAt_eq_be16 hL in_range).symm
  · rw [← fetch_address] at outside ⊢
    exact fetch16_error.2 ⟨outside, rfl⟩

/-- After the opcode byte, the four bytes that follow are enough for the operands of every mnemonic. -/
theorem readOperands_fetches (hL : s.cfg.memLen ≤ 0x10000) (short : ε) (mn : Mnemonic) :
    Fetches s 1 (operandWidths mn) (readOperands fetch8 fetch16 mn (advanceIp 1 s))
      (readOperands (takeByte short) (takeWord short) mn (bytesAt s (s.reg .ip + BitVec.ofNat 16 1) 4)) := by
  cases mn with
  | movLitReg | movMemReg => exact fetches_word hL fun _ => fetches_byte fun _ => fetches_done _ _
  | movRegReg | addRegReg => exact fetches_byte fun _ => fetches_byte fun _ => fetches_done _ _
  | movRegMem => exact fetches_byte fun _ => fetches_word hL fun _ => fetches_done _ _
  | jmpNotEq => exact fetches_word hL fun _ => fetches_word hL fun _ => fetches_done _ _
  | pshLit => exact fetches_word hL fun _ => fetches_done _ _
  | pshReg | pop => exact fetches_byte fun _ => fetches_done _ _

theorem one_add_operandWidths (mn : Mnemonic) : 1 + (operandWidths mn).sum = instrLength mn := by cases mn <;> rfl

/-! ### The instruction -/

theorem fetchInstr_of_outside (h : s.cfg.memLen < (s.reg .ip).toNat + 1) :
    fetchInstr s = .error (.memory .read (s.reg .ip).toNat 1) := by
  rw [fetchInstr, fetch8_error.2 ⟨h, rfl⟩]
  rfl

theorem fetchInstr_of_unassigned (h : (s.reg .ip).toNat + 1 ≤ s.cfg.memLen)
    (hop : lookupOpcode s.cfg.opcodes (s.byte (s.reg .ip).toNat) = none) :
    fetchInstr s = .ok (.unassigned (s.byte (s.reg .ip).toNat) (advanceIp 1 s)) := by
  rw [fetchInstr, fetch8_ok.2 ⟨h, rfl, rfl⟩, ok_bind]
  simp only [memGet_eq_byte, hop]
  rfl

theorem fetchInstr_of_assigned {mn : Mnemonic} (h : (s.reg .ip).toNat + 1 ≤ s.cfg.memLen)
    (hop : lookupOpcode s.cfg.opcodes (s.byte (s.reg .ip).toNat) = some mn) :
    fetchInstr s = readOperands fetch8 fetch16 mn (advanceIp 1 s) >>= fun p => pure (.instr p.1 p.2) := by
  rw [fetchInstr, fetch8_ok.2 ⟨h, rfl, rfl⟩, ok_bind]
  simp only [memGet_eq_byte, hop]

/-- A byte the lookup takes to a mnemonic, and the four after it, decode to an instruction of that mnemonic. -/
theorem decode_bytesAt_of_assigned (hL : s.cfg.memLen ≤ 0x10000) {mn : Mnemonic}
    (hop : lookupOpcode s.cfg.opcodes (s.byte (s.reg .ip).toNat) = some mn) :
    ∃ i rest, decode s.cfg.opcodes (bytesAt s (s.reg .ip) 5) = .ok (i, rest) ∧ i.mnemonic = mn := by
  obtain ⟨i, rest, hi, _⟩ := readOperands_fetches hL (DecodeError.truncated mn) mn
  exact ⟨i, rest, (decode_cons_of_lookup hop _).trans hi, readOperands_yields _ _ _ _ _ _ hi⟩

/-- How the fetch of one instruction ends, beside what the bytes at `ip` decode to. -/
inductive FetchEnds (s : State) : Except Abort Fetched → Prop where
  | opcodeOutside (outside : s.cfg.memLen < (s.reg .ip).toNat + 1) :
    FetchEnds s (.error (.memory .read (s.reg .ip).toNat 1))
  | unassigned (in_range : (s.reg .ip).toNat + 1 ≤ s.cfg.memLen)
      (decoded : decode s.cfg.opcodes (bytesAt s (s.reg .ip) 5) = .error (.unassigned (s.byte (s.reg .ip).toNat))) :
    FetchEnds s (.ok (.unassigned (s.byte (s.reg .ip).toNat) (advanceIp 1 s)))
  | operandOutside (in_range : (s.reg .ip).toNat + 1 ≤ s.cfg.memLen) (i : Instr) (rest : List Byte)
      (decoded : decode s.cfg.opcodes (bytesAt s (s.reg .ip) 5) = .ok (i, rest)) (e : Abort)
      (fault : firstFault (fetchFaults s (s.reg .ip + 1) (operandWidths i.mnemonic)) =
        some (faultRecord (s.reg .ip) e)) :
    FetchEnds s (.error e)
  | instr (in_range : (s.reg .ip).toNat + 1 ≤ s.cfg.memLen) (i : Instr) (rest : List Byte)
      (decoded : decode s.cfg.opcodes (bytesAt s (s.reg .ip) 5) = .ok (i, rest))
      (no_fault : firstFault (fetchFaults s (s.reg .ip + 1) (operandWidths i.mnemonic)) = none) :
    FetchEnds s (.ok (.instr i (advanceIp (instrLength i.mnemonic) s)))

theorem fetchInstr_ends (hL : s.cfg.memLen ≤ 0x10000) : FetchEnds s (fetchInstr s) := by
  by_cases in_range : (s.reg .ip).toNat + 1 ≤ s.cfg.memLen
  case neg =>
    have outside := Nat.lt_of_not_le in_range
    exact fetchInstr_of_outside outside ▸ .opcodeOutside outside
  case pos =>
    cases hop : lookupOpcode s.cfg.opcodes (s.byte (s.reg .ip).toNat) with
    | none => exact fetchInstr_of_unassigned in_range hop ▸ .unassigned in_range (decode_cons_of_unassigned hop _)
    | some mn =>
      obtain ⟨i, rest, hi, ends⟩ := readOperands_fetches hL (DecodeError.truncated mn) mn
      have decoded := (decode_cons_of_lookup hop _).trans hi
      obtain rfl : i.mnemonic = mn := readOperands_yields _ _ _ _ _ _ hi
      rw [fetchInstr_of_assigned in_range hop]
      rcases ends with ⟨hx, no_fault⟩ | ⟨e, hx, fault⟩
      · rw [hx, one_add_operandWidths]
        exact .instr in_range i rest decoded no_fault
      · rw [hx]
        exact .operandOutside in_range i rest decoded e fault

/-- Settles O14: the other three ends of the fetch need a fetch that fails or bytes that do not decode. -/
theorem fetchReadsTheDecodedInstruction : Obligations.FetchReadsTheDecodedInstruction := by
  rintro s i rest ⟨_, le_64K, _⟩ decoded opcode_ok operands_ok
  obtain ⟨r, hr, ends⟩ : ∃ r, fetchInstr s = r ∧ FetchEnds s r := ⟨_, rfl, fetchInstr_ends le_64K⟩
  cases ends with
  | opcodeOutside outside => simp [memoryFault_eq_some outside] at opcode_ok
  | unassigned _ not_decoded => simp [not_decoded] at decoded
  | operandOutside _ j _ decoded' e fault =>
    obtain ⟨rfl, rfl⟩ := Prod.mk.inj (Except.ok.inj (decoded'.symm.trans decoded))
    cases fault.symm.trans operands_ok
  | instr _ j _ decoded' _ =>
    obtain ⟨rfl, rfl⟩ := Prod.mk.inj (Except.ok.inj (decoded'.symm.trans decoded))
    exact ⟨_, hr, becomes_advanceIp _ s⟩

/-- The fetch stores nothing, so it never stops in a store. -/
theorem readOperands_storesAt (mn : Mnemonic) (t : State) :
    FailsOnly (StoresAt none) (readOperands fetch8 fetch16 mn t) := by
  have byte (t : State) : FailsOnly (StoresAt none) (fetch8 t) := by
    rintro e he _ _ rfl
    simp [fetch8_error] at he
  have word (t : State) : FailsOnly (StoresAt none) (fetch16 t) := by
    rintro e he _ _ rfl
    simp [fetch16_error] at he
  cases mn with
  | movLitReg | movMemReg => exact failsOnly_bind (word _) fun _ => failsOnly_bind (byte _) fun _ => failsOnly_ok _
  | movRegReg | addRegReg => exact failsOnly_bind (byte _) fun _ => failsOnly_bind (byte _) fun _ => failsOnly_ok _
  | movRegMem => exact failsOnly_bind (byte _) fun _ => failsOnly_bind (word _) fun _ => failsOnly_ok _
  | jmpNotEq => exact failsOnly_bind (word _) fun _ => failsOnly_bind (word _) fun _ => failsOnly_ok _
  | pshLit => exact failsOnly_bind (word _) fun _ => failsOnly_ok _
  | pshReg | pop => exact failsOnly_bind (byte _) fun _ => failsOnly_ok _

theorem fetchInstr_storesAt (s : State) : FailsOnly (StoresAt none) (fetchInstr s) := by
  by_cases in_range : (s.reg .ip).toNat + 1 ≤ s.cfg.memLen
  case neg =>
    rw [fetchInstr_of_outside (Nat.lt_of_not_le in_range)]
    rintro e he _ _ rfl
    cases he
  case pos =>
    cases hop : lookupOpcode s.cfg.opcodes (s.byte (s.reg .ip).toNat) with
    | none => exact fetchInstr_of_unassigned in_range hop ▸ failsOnly_ok _
    | some mn =>
      rw [fetchInstr_of_assigned in_range hop]
      exact failsOnly_bind (readOperands_storesAt mn _) fun _ => failsOnly_ok _

end

end Sys2Proof.Proofs.Fetch
end

section
/-! The step (40_cycle.md R102 to R110; 60_exceptions.md R181 to R187): the fetch and then the effect, each ending the
step at its first failing access. -/

namespace Sys2Proof.Proofs.Steps
open Sys2Proof Sys2Proof.Machine Sys2Proof.Proofs.Sequence Sys2Proof.Proofs.OpcodeByte Sys2Proof.Proofs.Encoding
  Sys2Proof.Proofs.Updates Sys2Proof.Proofs.Effects Sys2Proof.Proofs.Faults Sys2Proof.Proofs.Fetch

/-! ### A step is one computation -/

/-- What follows the fetch: the effect of the instruction, or what the policy says of an unassigned byte. -/
def afterFetch (s : State) : Fetched → Except Abort State
  | .instr i _ => effect i s
  | .unassigned op _ =>
    match s.cfg.unknownPolicy with
    | .nop => .ok (advanceIp 1 s)
    | .fault => .error (.opcode op)

/-- The statements of a whole step. -/
def stepEffect (s : State) : Except Abort State := fetchInstr s >>= afterFetch s

section
variable {s t : State}

theorem afterFetch_nop (hp : s.cfg.unknownPolicy = .nop) (op : Byte) (u : State) :
    afterFetch s (.unassigned op u) = .ok (advanceIp 1 s) := by
  simp only [afterFetch, hp]

theorem afterFetch_fault (hp : s.cfg.unknownPolicy = .fault) (op : Byte) (u : State) :
    afterFetch s (.unassigned op u) = .error (.opcode op) := by
  simp only [afterFetch, hp]

theorem execUnassigned_eq_complete (op : Byte) (s u : State) :
    execUnassigned op s = complete s (afterFetch s (.unassigned op u)) := by
  cases hp : s.cfg.unknownPolicy with
  | nop => simp only [execUnassigned, hp, afterFetch_nop hp]
  | fault => simp only [execUnassigned, hp, afterFetch_fault hp]

/-- A step from a `Running` state is its statements, and what the end of a step makes of them. -/
theorem step_eq_complete (h : s.status = .running) : step s = complete s (stepEffect s) := by
  simp only [step, h, stepEffect]
  cases fetchInstr s with
  | error e => rfl
  | ok fetched =>
    cases fetched with
    | instr i u => exact exec_eq_complete i s
    | unassigned op u => exact execUnassigned_eq_complete op s u

/-- A step that completes passed an unassigned byte or ran the effect of the instruction it fetched. -/
theorem stepEffect_ok (h : stepEffect s = .ok t) :
    (∃ op u, fetchInstr s = .ok (.unassigned op u) ∧ s.cfg.unknownPolicy = .nop ∧ t = advanceIp 1 s) ∨
      ∃ i u, fetchInstr s = .ok (.instr i u) ∧ effect i s = .ok t := by
  obtain ⟨fetched, hfetch, h⟩ := bind_eq_ok.1 h
  cases fetched with
  | instr i u => exact .inr ⟨i, u, hfetch, h⟩
  | unassigned op u =>
    cases hp : s.cfg.unknownPolicy with
    | nop =>
      rw [afterFetch_nop hp] at h
      exact .inl ⟨op, u, hfetch, rfl, (Except.ok.inj h).symm⟩
    | fault =>
      rw [afterFetch_fault hp] at h
      cases h

theorem stepEffect_status (h : stepEffect s = .ok t) : t.status = s.status := by
  rcases stepEffect_ok h with ⟨_, _, _, _, rfl⟩ | ⟨i, _, _, ht⟩
  · rfl
  · exact (effect_effected ht).status

theorem step_next_cases (hst : s.status = .running) (h : step s = .next t) :
    (stepEffect s = .ok t ∧ t.status = .running) ∨ ∃ e, stepEffect s = .error e ∧ t = takeFault e s := by
  rw [step_eq_complete hst] at h
  exact (complete_next.1 h).imp_left fun ok => ⟨ok, (stepEffect_status ok).trans hst⟩

/-- Only a `Running` state has a next one. -/
theorem running_of_step (h : step s = .next t) : s.status = .running := by
  cases hst : s.status with
  | running => rfl
  | faulted f =>
    rw [step_of_faulted hst] at h
    cases h

theorem exists_step (h : s.status = .running) : ∃ t, step s = .next t := by
  rw [step_eq_complete h]
  cases stepEffect s <;> exact ⟨_, rfl⟩

theorem step_of_fetchInstr {i : Instr} {u : State} (h : s.status = .running) (hi : fetchInstr s = .ok (.instr i u)) :
    step s = exec i s := by
  rw [step_eq_complete h, stepEffect, hi, ok_bind, exec_eq_complete]
  rfl

/-- Settles O15: the statements of the step after the fetch are the effect of the instruction. -/
theorem stepRunsTheFetchedInstruction : Obligations.StepRunsTheFetchedInstruction := fun _ _ _ => step_of_fetchInstr

/-- Settles O17: `complete` answers a next state in every case, and a `Faulted` status is looked at first. -/
theorem stepRunsOnlyARunningInstance : Obligations.StepRunsOnlyARunningInstance := fun s =>
  ⟨exists_step, fun f h => ⟨step_of_faulted h, by simp only [hostStep, step_of_faulted h]⟩⟩

theorem hostStep_of_running (ht : step s = .next t) (h : t.status = .running) : hostStep s = (t, .ok) := by
  simp only [hostStep, ht, h]

theorem hostStep_of_fault {f : Fault} (ht : step s = .next t) (h : t.status = .faulted f) :
    hostStep s = (t, .fault f) := by
  simp only [hostStep, ht, h]

/-- Settles O23: the reply follows the status of the state the step answers. -/
theorem hostSeesTheFaultOfAStep : Obligations.HostSeesTheFaultOfAStep := by
  intro s h
  obtain ⟨t, ht⟩ := exists_step h
  cases hst : t.status with
  | running =>
    rw [hostStep_of_running ht hst]
    exact .inl ⟨rfl, hst⟩
  | faulted f =>
    rw [hostStep_of_fault ht hst]
    exact .inr ⟨f, rfl, hst⟩

/-- Settles O43: a step advances `ip`, runs one effect, or takes a fault, and each keeps the state well formed. -/
theorem stepKeepsTheStateWellFormed : Obligations.StepKeepsTheStateWellFormed := by
  intro s t h ht
  rcases step_next_cases (running_of_step ht) ht with ⟨ok, _⟩ | ⟨e, _, rfl⟩
  · rcases stepEffect_ok ok with ⟨_, _, _, _, rfl⟩ | ⟨i, _, _, hi⟩
    · exact h
    · exact effect_wf h hi
  · exact takeFault_wf e h

/-! ### The fault of a step -/

theorem stepFault_of_outside (h : s.cfg.memLen < (s.reg .ip).toNat + 1) :
    stepFault s = some (.outOfBounds .memory (s.reg .ip).toNat 1 (s.reg .ip)) := by
  simp only [stepFault, memoryFault_eq_some h]

theorem stepFault_of_unassigned {e : DecodeError} (h : (s.reg .ip).toNat + 1 ≤ s.cfg.memLen)
    (he : decode s.cfg.opcodes (bytesAt s (s.reg .ip) 5) = .error e) :
    stepFault s = if s.cfg.unknownPolicy = .nop then none
      else some (.invalidOpcode (s.byte (s.reg .ip).toNat) (s.reg .ip)) := by
  simp only [stepFault, memoryFault_eq_none h, he]
  cases s.cfg.unknownPolicy <;> rfl

theorem stepFault_of_decode {i : Instr} {rest : List Byte} (h : (s.reg .ip).toNat + 1 ≤ s.cfg.memLen)
    (hi : decode s.cfg.opcodes (bytesAt s (s.reg .ip) 5) = .ok (i, rest)) :
    stepFault s = (firstFault (fetchFaults s (s.reg .ip + 1) (operandWidths i.mnemonic))).or
      (firstFault (effectFaults i s)) := by
  simp only [stepFault, memoryFault_eq_none h, hi, firstFault_append]

/-- The step stops at the first failing access of the fetch, and, if there is none, of the effect. -/
theorem stepEffect_raises (hL : s.cfg.memLen ≤ 0x10000) : Raises s (stepEffect s) [stepFault s] := by
  obtain ⟨r, hr, ends⟩ : ∃ r, fetchInstr s = r ∧ FetchEnds s r := ⟨_, rfl, fetchInstr_ends hL⟩
  rw [stepEffect, hr]
  cases ends with
  | opcodeOutside outside =>
    rw [error_bind, stepFault_of_outside outside]
    exact raises_error rfl
  | unassigned in_range decoded =>
    rw [ok_bind]
    cases hp : s.cfg.unknownPolicy with
    | nop =>
      rw [afterFetch_nop hp, stepFault_of_unassigned in_range decoded, hp]
      exact raises_ok _ rfl
    | fault =>
      rw [afterFetch_fault hp, stepFault_of_unassigned in_range decoded, hp]
      exact raises_error rfl
  | operandOutside in_range i rest decoded e fault =>
    rw [error_bind, stepFault_of_decode in_range decoded, fault]
    exact raises_error rfl
  | instr in_range i rest decoded no_fault =>
    rw [ok_bind, stepFault_of_decode in_range decoded, no_fault, Option.none_or]
    unfold Raises
    rw [firstFault_singleton]
    exact effect_raises i s

theorem step_status (hL : s.cfg.memLen ≤ 0x10000) (h : s.status = .running) :
    ∃ t, step s = .next t ∧ t.status = statusAfter s (stepFault s) := by
  obtain ⟨t, ht, hst⟩ := complete_status (stepEffect_raises hL) fun _ => stepEffect_status
  rw [firstFault_singleton] at hst
  exact ⟨t, (step_eq_complete h).trans ht, hst⟩

/-- Settles O21: with no fault the status is the one before the step, `Running`; with one it is not. -/
theorem stepRaisesTheFirstFailingAccess : Obligations.StepRaisesTheFirstFailingAccess := by
  rintro s ⟨_, le_64K, _⟩ h
  obtain ⟨t, ht, hst⟩ := step_status le_64K h
  refine ⟨⟨t, ht, hst⟩, ?_⟩
  cases hf : stepFault s with
  | none => exact iff_of_true ⟨t, ht, by rw [hst, hf]; exact h⟩ rfl
  | some f =>
    refine iff_of_false ?_ (fun h => nomatch h)
    rintro ⟨u, hu, running⟩
    obtain rfl := Host.Outcome.next.inj (hu.symm.trans ht)
    rw [hst, hf] at running
    cases running

/-- An opcode byte in memory whose operands are not: the step ends in the fault of the operand fetch. -/
theorem step_faults_at_operand (hL : s.cfg.memLen ≤ 0x10000) (h : s.status = .running)
    (in_range : (s.reg .ip).toNat + 1 ≤ s.cfg.memLen) {mn : Mnemonic}
    (hop : lookupOpcode s.cfg.opcodes (s.byte (s.reg .ip).toNat) = some mn) {f : Fault}
    (hf : firstFault (fetchFaults s (s.reg .ip + 1) (operandWidths mn)) = some f) :
    ∃ t, step s = .next t ∧ t.status = .faulted f := by
  obtain ⟨i, rest, decoded, rfl⟩ := decode_bytesAt_of_assigned hL hop
  obtain ⟨t, ht, hst⟩ := step_status hL h
  rw [stepFault_of_decode in_range decoded, hf] at hst
  exact ⟨t, ht, hst⟩

/-- Settles O22: the fetch stores nothing, and an instruction at its store address only. -/
theorem faultLeavesRegistersAndMemory : Obligations.FaultLeavesRegistersAndMemory := by
  intro s t f hm h ht hf
  rcases step_next_cases h ht with ⟨_, running⟩ | ⟨e, he, rfl⟩
  · rw [running] at hf
    cases hf
  · obtain rfl : faultRecord (s.reg .ip) e = f := Status.faulted.inj hf
    refine ⟨rfl, fun r hr => takeFault_reg e s hr, fun a => ?_⟩
    rcases bind_eq_error.1 he with in_fetch | ⟨fetched, hfetch, after_fetch⟩
    · exact (byte_takeFault hm (fetchInstr_storesAt s e in_fetch) a).imp_right
        fun ⟨_, _, _, stored, _⟩ => nomatch stored
    · cases fetched with
      | instr i u =>
        refine (byte_takeFault hm (effect_storesAt i s e after_fetch) a).imp_right ?_
        rintro ⟨last, rfl, b, stored, hb⟩
        exact ⟨last, rfl, i, u, b, hfetch, stored, hb⟩
      | unassigned op u =>
        cases hp : s.cfg.unknownPolicy with
        | nop =>
          rw [afterFetch_nop hp] at after_fetch
          cases after_fetch
        | fault =>
          rw [afterFetch_fault hp] at after_fetch
          cases after_fetch
          exact .inl rfl

/-! ### Where `ip` is after a step -/

theorem eq_zero_of_regOf_ip {d : RegIx} (h : regOf d = some .ip) : d = 0 := by
  have position : d.toNat = 0 :=
    (List.getElem?_inj (regOf_some_inBank h) (by decide : RegName.all.Nodup)).1 (h.trans (rfl : _ = RegName.all[0]?))
  exact BitVec.eq_of_toNat_eq position

/-- After a write to a destination register, `ip` is past the instruction, unless the raw index was 0. -/
theorem ip_after_write {d : RegIx} {r : RegName} (hr : regOf d = some r) (n : Nat) (v : Word) :
    d = 0 ∨ ((advanceIp n s).setReg r v).reg .ip = s.reg .ip + BitVec.ofNat 16 n := by
  by_cases hip : r = .ip
  · exact .inl (eq_zero_of_regOf_ip (hip ▸ hr))
  · exact .inr (by rw [State.reg_setReg, if_neg (Ne.symm hip), advanceIp_reg, if_pos rfl])

/-- A completed effect leaves `ip` past the instruction, unless its rule writes `ip`. -/
theorem effect_ip {i : Instr} (h : effect i s = .ok t) :
    t.reg .ip = s.reg .ip + BitVec.ofNat 16 (instrLength i.mnemonic) ∨
      (∃ lit target, i = .jmpNotEq lit target ∧ lit ≠ s.reg .acc) ∨
      (∃ lit, i = .movLitReg lit 0) ∨ (∃ src, i = .movRegReg src 0) ∨ (∃ a, i = .movMemReg a 0) ∨ i = .pop 0 := by
  cases i with
  | movLitReg lit d =>
    obtain ⟨r, hr, rfl⟩ := effect_movLitReg.1 h
    rcases ip_after_write hr 4 lit with rfl | ip
    · exact .inr (.inr (.inl ⟨lit, rfl⟩))
    · exact .inl ip
  | movRegReg a d =>
    obtain ⟨p, r, _, hr, rfl⟩ := effect_movRegReg.1 h
    rcases ip_after_write hr 3 (effectReg s 3 p) with rfl | ip
    · exact .inr (.inr (.inr (.inl ⟨a, rfl⟩)))
    · exact .inl ip
  | movRegMem a addr =>
    obtain ⟨_, _, _, rfl⟩ := effect_movRegMem.1 h
    exact .inl (advanceIp_reg 4 s .ip)
  | movMemReg addr d =>
    obtain ⟨r, _, hr, rfl⟩ := effect_movMemReg.1 h
    rcases ip_after_write hr 4 (wordAt s addr.toNat) with rfl | ip
    · exact .inr (.inr (.inr (.inr (.inl ⟨addr, rfl⟩))))
    · exact .inl ip
  | addRegReg a b =>
    obtain ⟨_, _, _, _, rfl⟩ := effect_addRegReg.1 h
    exact .inl (advanceIp_reg 3 s .ip)
  | jmpNotEq lit target =>
    by_cases taken : lit = s.reg .acc
    · rw [effect_jmpNotEq, if_pos taken] at h
      cases h
      exact .inl (advanceIp_reg 5 s .ip)
    · exact .inr (.inl ⟨lit, target, rfl, taken⟩)
  | pshLit lit =>
    obtain ⟨_, rfl⟩ := pushWord_advanceIp_ok.1 h
    exact .inl (advanceIp_reg 3 s .ip)
  | pshReg a =>
    obtain ⟨v, hv⟩ := pushedValue_of_effect_pshReg h
    obtain ⟨_, rfl⟩ := pushWord_advanceIp_ok.1 (effect_push hv ▸ h)
    exact .inl (advanceIp_reg 2 s .ip)
  | pop d =>
    obtain ⟨r, _, hr, rfl⟩ := effect_pop.1 h
    rcases ip_after_write hr 2 (wordAt s (s.reg .sp + 2).toNat) with rfl | ip
    · exact .inr (.inr (.inr (.inr (.inr rfl))))
    · exact .inl ((State.reg_setReg _ _ _ _).trans ip)

/-- Settles O20: only the two ends of the fetch that answer are left, and each says what the bytes at `ip` decode to. -/
theorem successfulStepAdvancesIpByTheLength : Obligations.SuccessfulStepAdvancesIpByTheLength := by
  refine ⟨?_, ⟨rfl, rfl, rfl⟩, ⟨rfl, rfl, rfl⟩, rfl, rfl, rfl⟩
  rintro s t ⟨_, le_64K, _⟩ h ht running
  rcases step_next_cases h ht with ⟨ok, _⟩ | ⟨e, _, rfl⟩
  · obtain ⟨r, hr, ends⟩ : ∃ r, fetchInstr s = r ∧ FetchEnds s r := ⟨_, rfl, fetchInstr_ends le_64K⟩
    rcases stepEffect_ok ok with ⟨op, u, hfetch, hp, rfl⟩ | ⟨i, u, hfetch, hi⟩
    · cases hr.symm.trans hfetch
      cases ends with
      | unassigned _ decoded => exact .inl ⟨decoded, hp, advanceIp_reg 1 s .ip⟩
    · cases hr.symm.trans hfetch
      cases ends with
      | instr _ _ rest decoded _ => exact .inr ⟨i, rest, decoded, effect_ip hi⟩
  · cases running

/-! ### The instructions in memory -/

theorem firstFault_fetchFaults_eq_none {a : Word} {ws : List Nat} (h : a.toNat + ws.sum ≤ s.cfg.memLen) :
    firstFault (fetchFaults s a ws) = none := by
  induction ws generalizing a with
  | nil => rfl
  | cons w ws ih =>
    rw [List.sum_cons] at h
    rw [fetchFaults, memoryFault_eq_none (by omega), firstFault_none_cons]
    refine ih (Nat.le_trans ?_ h)
    have wrapped : (a + BitVec.ofNat 16 w).toNat ≤ a.toNat + w := by
      rw [BitVec.toNat_add, BitVec.toNat_ofNat, Nat.add_mod_mod]
      exact Nat.mod_le _ _
    omega

theorem instrLength_le_five (mn : Mnemonic) : instrLength mn ≤ 5 := by cases mn <;> decide

/-- Settles O16: the encoding decodes to its instruction whatever follows it, and all of it is in memory. -/
theorem stepRunsTheInstructionInMemory : Obligations.StepRunsTheInstructionInMemory := by
  intro s i hcfg h inside bytes
  have length := one_add_operandWidths i.mnemonic
  obtain ⟨n, hn⟩ := Nat.exists_eq_add_of_le (instrLength_le_five i.mnemonic)
  have decoded := decodeOfEncodeGivesTheInstruction s.cfg.opcodes hcfg.2.2 i
    (bytesAt s (s.reg .ip + BitVec.ofNat 16 (instrLength i.mnemonic)) n)
  rw [← bytes, ← bytesAt_add, ← hn] at decoded
  have next_byte : (s.reg .ip + 1).toNat ≤ (s.reg .ip).toNat + 1 := by
    rw [BitVec.toNat_add]
    exact Nat.mod_le _ _
  obtain ⟨u, hu, _⟩ := fetchReadsTheDecodedInstruction s i _ hcfg decoded (memoryFault_eq_none (by omega))
    (firstFault_fetchFaults_eq_none (by omega))
  exact step_of_fetchInstr h hu

/-- Settles O24: the effect is one write, and each operand fetch comes after those before it succeeded. -/
theorem movLitRegWritesTheLiteral : Obligations.MovLitRegWritesTheLiteral := by
  intro s lit d
  refine ⟨rfl, fun r hr => ?_, fun hd => ?_, fun ⟨_, le_64K, hm⟩ h in_range byte => ?_⟩
  · exact ⟨_, exec_of_effect_ok (effect_movLitReg.2 ⟨r, hr, rfl⟩), becomes_setReg (becomes_advanceIp 4 s) _ _⟩
  · exact ⟨_, exec_of_effect_error (writeReg_error.2 ⟨hd, rfl⟩), rfl⟩
  · have hop : lookupOpcode s.cfg.opcodes (s.byte (s.reg .ip).toNat) = some .movLitReg :=
      byte ▸ lookupOpcode_code hm .movLitReg
    have faults {f : Fault} (hf : firstFault (fetchFaults s (s.reg .ip + 1) [2, 1]) = some f) :
        ∃ t, step s = .next t ∧ t.status = .faulted f := step_faults_at_operand le_64K h in_range hop hf
    refine ⟨fun outside => ?_, fun literal_ok outside => ?_⟩
    · exact faults (by rw [fetchFaults, memoryFault_eq_some outside]; rfl)
    · have third : s.reg .ip + 1 + BitVec.ofNat 16 2 = s.reg .ip + 3 := add_ofNat_add _ 1 2
      exact faults (by
        rw [fetchFaults, memoryFault_eq_none literal_ok, firstFault_none_cons, third, fetchFaults,
          memoryFault_eq_some outside]
        rfl)

/-- Settles O30: the store is the effect's one access, and a fault leaves `sp` as it was. -/
theorem pshLitPushesTheLiteral : Obligations.PshLitPushesTheLiteral := by
  intro s lit
  refine ⟨rfl, fun hm in_range => exec_push hm rfl in_range, fun outside => ?_,
    fun ⟨_, le_64K, hm⟩ h in_range byte outside => ?_⟩
  · exact ⟨_, exec_push_fault rfl outside, rfl, takeFault_reg _ s (by decide)⟩
  · have hop : lookupOpcode s.cfg.opcodes (s.byte (s.reg .ip).toNat) = some .pshLit :=
      byte ▸ lookupOpcode_code hm .pshLit
    exact step_faults_at_operand le_64K h in_range hop
      (by rw [operandWidths, fetchFaults, memoryFault_eq_some outside]; rfl)

/-! ### Unassigned bytes and jumps -/

theorem step_of_outside (h : s.status = .running) (outside : s.cfg.memLen ≤ (s.reg .ip).toNat) :
    step s = .next (takeFault (.memory .read (s.reg .ip).toNat 1) s) := by
  rw [step_eq_complete h, stepEffect, fetchInstr_of_outside (Nat.lt_succ_of_le outside)]
  rfl

theorem step_unassigned (h : s.status = .running) (in_range : (s.reg .ip).toNat < s.cfg.memLen)
    (hop : lookupOpcode s.cfg.opcodes (s.byte (s.reg .ip).toNat) = none) :
    step s = complete s (afterFetch s (.unassigned (s.byte (s.reg .ip).toNat) (advanceIp 1 s))) := by
  rw [step_eq_complete h, stepEffect, fetchInstr_of_unassigned in_range hop, ok_bind]

theorem step_unassigned_nop (h : s.status = .running) (in_range : (s.reg .ip).toNat < s.cfg.memLen)
    (hop : lookupOpcode s.cfg.opcodes (s.byte (s.reg .ip).toNat) = none) (hp : s.cfg.unknownPolicy = .nop) :
    step s = .next (advanceIp 1 s) := by
  rw [step_unassigned h in_range hop, afterFetch_nop hp, complete_ok]

/-- Settles O18: the fetch passes the byte, and the policy decides what follows. -/
theorem unassignedOpcodeFollowsThePolicy : Obligations.UnassignedOpcodeFollowsThePolicy := by
  rintro s op h in_range rfl hop
  cases hp : s.cfg.unknownPolicy with
  | nop => exact ⟨_, step_unassigned_nop h in_range hop hp, becomes_advanceIp 1 s⟩
  | fault =>
    refine ⟨takeFault (.opcode (s.byte (s.reg .ip).toNat)) s, ?_, rfl, rfl, fun r hr => takeFault_reg _ s hr,
      fun _ => rfl⟩
    rw [step_unassigned h in_range hop, afterFetch_fault hp, complete_error]

theorem advanceIp_zero (s : State) : advanceIp 0 s = s :=
  state_ext (fun r => by by_cases hr : r = .ip <;> simp [hr]) rfl rfl rfl rfl

/-- A run over unassigned bytes, as long as `ip` stays in memory, moves `ip` one byte a step. -/
theorem run_unassigned (h : s.status = .running) (hp : s.cfg.unknownPolicy = .nop)
    (hop : ∀ a, a < s.cfg.memLen → lookupOpcode s.cfg.opcodes (s.byte a) = none) {n : Nat}
    (hn : ∀ k, k < n → ((advanceIp k s).reg .ip).toNat < s.cfg.memLen) : core.run n s = .next (advanceIp n s) := by
  induction n with
  | zero => rw [advanceIp_zero]; rfl
  | succ n ih =>
    have in_range := hn n (Nat.lt_succ_self n)
    have last : step (advanceIp n s) = .next (advanceIp 1 (advanceIp n s)) :=
      step_unassigned_nop h in_range (hop _ in_range) hp
    rw [advanceIp_advanceIp] at last
    exact run_then_step (ih fun k hk => hn k (Nat.lt_succ_of_lt hk)) last

theorem advanceIp_ip_of_lt {n : Nat} (h : (s.reg .ip).toNat + n < 65536) :
    ((advanceIp n s).reg .ip).toNat = (s.reg .ip).toNat + n :=
  (Primitives.advanceIp_ip_toNat n s).trans (Nat.mod_eq_of_lt h)

/-- Settles O19: with 64K every value of `ip` is in memory; with less the walk ends at `L`, where the fetch fails. -/
theorem runOverUnassignedBytes : Obligations.RunOverUnassignedBytes := by
  intro s _ h hp hop
  refine ⟨fun whole n => ?_, fun shorter inside => ?_⟩
  · have never_outside (k : Nat) : ((advanceIp k s).reg .ip).toNat < s.cfg.memLen := whole ▸ BitVec.isLt _
    exact ⟨_, run_unassigned h hp hop fun k _ => never_outside k, becomes_advanceIp n s⟩
  · have walk : core.run (s.cfg.memLen - (s.reg .ip).toNat) s = .next _ := run_unassigned h hp hop fun k hk => by
      rw [advanceIp_ip_of_lt (by omega)]
      omega
    have last : ((advanceIp (s.cfg.memLen - (s.reg .ip).toNat) s).reg .ip).toNat = s.cfg.memLen := by
      rw [advanceIp_ip_of_lt (by omega)]
      omega
    have pc : (advanceIp (s.cfg.memLen - (s.reg .ip).toNat) s).reg .ip = BitVec.ofNat 16 s.cfg.memLen :=
      BitVec.eq_of_toNat_eq (by rw [last, BitVec.toNat_ofNat, Nat.mod_eq_of_lt shorter])
    refine ⟨⟨_, walk, h, last⟩, _, run_then_step walk (step_of_outside h last.ge), ?_⟩
    rw [takeFault_status, last, pc]
    rfl

/-- Settles O37: the jump writes `ip` without a check, and the opcode fetch of the next step makes it. -/
theorem jumpTargetIsCheckedByTheNextStep : Obligations.JumpTargetIsCheckedByTheNextStep := by
  intro s lit target h taken
  have jump := exec_of_effect_ok (effect_jmpNotEq lit target s)
  rw [if_neg taken] at jump
  have landed : ((advanceIp 5 s).setReg .ip target).reg .ip = target := State.reg_setReg _ _ _ _
  refine ⟨_, jump, h, landed, fun outside => ⟨_, step_of_outside h (landed.symm ▸ outside), ?_⟩⟩
  rw [takeFault_status, landed]
  rfl

/-- Settles O38: the jump puts `ip` back to where the step found it. -/
theorem selfJumpRunsForever : Obligations.SelfJumpRunsForever := by
  intro s lit hcfg h taken inside bytes
  have same : (advanceIp 5 s).setReg .ip (s.reg .ip) = s :=
    state_ext (fun r => by by_cases hr : r = .ip <;> simp [hr]) rfl rfl rfl rfl
  have jump := exec_of_effect_ok (effect_jmpNotEq lit (s.reg .ip) s)
  rw [if_neg taken, same] at jump
  have step := (stepRunsTheInstructionInMemory s (.jmpNotEq lit (s.reg .ip)) hcfg h inside bytes).trans jump
  intro n
  induction n with
  | zero => rfl
  | succ n ih => rw [run_next step, ih]

end

end Sys2Proof.Proofs.Steps
end

section
/-! The host port (10_state.md R35 to R41, 60_exceptions.md R193): what each host operation replies, what it can do to
the state, and what every run of them keeps. -/

namespace Sys2Proof.Proofs.HostPort
open Sys2Proof Sys2Proof.Machine Sys2Proof.Proofs.Updates Sys2Proof.Proofs.ConstructedRegisters Sys2Proof.Proofs.Faults
  Sys2Proof.Proofs.Steps

section
variable {s t : State}

/-! ### The named registers -/

theorem namedRegisters_eq_map : namedRegisters = RegName.all.map fun r => (registerName r, r) := rfl

theorem mem_all (r : RegName) : r ∈ RegName.all := by cases r <;> decide

theorem mem_namedRegisters {name : String} {r : RegName} : (name, r) ∈ namedRegisters ↔ name = registerName r := by
  rw [namedRegisters_eq_map, List.mem_map]
  constructor
  · rintro ⟨_, _, ⟨⟩⟩; rfl
  · rintro rfl; exact ⟨r, mem_all r, rfl⟩

theorem registerNamed_of_unlisted {name : String} (h : ∀ r, (name, r) ∉ namedRegisters) :
    registerNamed name = none := by
  refine List.find?_eq_none.2 fun r _ found => h r (mem_namedRegisters.2 ?_)
  exact (beq_iff_eq.1 found).symm

theorem setRegister_registerName (r : RegName) (v : Int) (s : State) :
    setRegister (registerName r) v s = .ok (s.setReg r (BitVec.ofInt 16 v)) := by
  simp only [setRegister, registerNamed_registerName]

theorem setRegister_of_unlisted {name : String} (h : ∀ r, (name, r) ∉ namedRegisters) (v : Int) (s : State) :
    setRegister name v s = .error (.invalidRegisterName name) := by
  simp only [setRegister, registerNamed_of_unlisted h]

theorem getRegister_of_unlisted {name : String} (h : ∀ r, (name, r) ∉ namedRegisters) (s : State) :
    getRegister name s = .error (.invalidRegisterName name) := by
  simp only [getRegister, registerNamed_of_unlisted h]

/-- Settles O50: the twelve strings are the names of the twelve registers. -/
theorem setRegisterThenGetRegister : Obligations.SetRegisterThenGetRegister := by
  intro name v s hname
  obtain ⟨r, _, rfl⟩ : ∃ r ∈ RegName.all, registerName r = name := List.mem_map.1 hname
  refine ⟨_, _, setRegister_registerName r v s, getRegister_registerName r _, ?_⟩
  rw [State.reg_setReg, if_pos rfl, BitVec.toNat_ofInt, Int.toNat_of_nonneg (Int.emod_nonneg v (by decide))]
  rfl

/-- Settles O51: a listed name selects its register, and any other string none. -/
theorem setRegisterWritesOnlyTheNamedRegister : Obligations.SetRegisterWritesOnlyTheNamedRegister := by
  refine fun name v s => ⟨fun r hr => ?_, fun unlisted => ?_⟩
  · obtain rfl := mem_namedRegisters.1 hr
    exact ⟨_, setRegister_registerName r v s, becomes_setReg (becomes_refl s) r _⟩
  · have refused := setRegister_of_unlisted unlisted v s
    exact ⟨refused, by simp only [perform, refused, hostUpdate]⟩

theorem hostQuery_fst {α : Type} (s : State) (reply : α → HostReply) (r : Except HostError α) :
    (hostQuery s reply r).1 = s := by cases r <;> rfl

/-- Settles O52: as for `setRegister`, and a query leaves the state. -/
theorem getRegisterAcceptsExactlyTheTwelveNames : Obligations.GetRegisterAcceptsExactlyTheTwelveNames := by
  refine fun name s => ⟨fun r hr => ?_, fun unlisted => getRegister_of_unlisted unlisted s, hostQuery_fst _ _ _⟩
  obtain rfl := mem_namedRegisters.1 hr
  exact getRegister_registerName r s

/-! ### Inspection and the driver's memory accesses -/

theorem length_bytesFrom (m : Memory) (a n : Nat) : (bytesFrom m a n).length = n := by
  induction n generalizing a with
  | zero => rfl
  | succ n ih => rw [bytesFrom, List.length_cons, ih]

theorem getElem?_bytesFrom (m : Memory) (a : Nat) {n k : Nat} (hk : k < n) :
    (bytesFrom m a n)[k]? = some (memGet m (a + k)) := by
  induction n generalizing a k with
  | zero => omega
  | succ n ih =>
    cases k with
    | zero => rfl
    | succ k => rw [bytesFrom, List.getElem?_cons_succ, ih _ (by omega), Nat.add_right_comm, Nat.add_assoc]

/-- Settles O53: the dump is `bytesFrom`, whose entries are the bytes in order. -/
theorem inspectionReadsTheState : Obligations.InspectionReadsTheState := by
  refine fun s a n hn => ⟨fun in_range => ?_, fun outside => ?_, ?_⟩
  · refine ⟨bytesFrom s.mem a n, ?_, length_bytesFrom _ _ _, fun k hk => getElem?_bytesFrom _ _ hk⟩
    simp only [perform, dumpBytes, byteLength, if_pos (Or.inr in_range), hostQuery]
  · have refused : ¬(n = 0 ∨ a + n ≤ s.cfg.memLen) := by omega
    simp only [perform, dumpBytes, byteLength, if_neg refused, hostQuery]
  · refine ⟨listRegisters s, rfl, rfl, fun ⟨name, r⟩ hp => List.mem_map.2 ⟨r, mem_all r, ?_⟩⟩
    rw [mem_namedRegisters.1 hp]

/-- Settles O55: the driver's accesses are the port's, with the port's failure as the reply. -/
theorem driverReadsAndWritesMemory : Obligations.DriverReadsAndWritesMemory := by
  refine fun s a b v hm => ⟨fun in_range => ⟨?_, s.setMem (memSet s.mem a b), ?_, becomes_memSet hm a b⟩,
    fun outside => ⟨?_, ?_⟩, fun in_range => ⟨?_, s.setMem (memSet16 s.mem a v), ?_,
    becomes_memSet16 hm (becomes_refl s) rfl a v⟩, fun outside => ⟨?_, ?_⟩⟩
  · simp only [perform, hostRead8, memRead8_ok.2 ⟨in_range, rfl⟩, hostAccess, hostQuery, memGet_eq_byte]
  · simp only [perform, hostWrite8, memWrite8_ok.2 ⟨in_range, rfl⟩, hostAccess, hostUpdate]
  · simp only [perform, hostRead8, memRead8_error.2 ⟨outside, rfl⟩, hostAccess, hostQuery]
  · simp only [perform, hostWrite8, memWrite8_error.2 ⟨outside, rfl⟩, hostAccess, hostUpdate]
  · simp only [perform, hostRead16, memRead16_ok.2 ⟨in_range, rfl⟩, hostAccess, hostQuery, memGet16_eq_wordAt]
  · simp only [perform, hostWrite16, memWrite16_ok.2 ⟨in_range, rfl⟩, hostAccess, hostUpdate]
  · simp only [perform, hostRead16, memRead16_error.2 ⟨outside, rfl⟩, hostAccess, hostQuery]
  · simp only [perform, hostWrite16, memWrite16_error.2 ⟨outside, rfl⟩, hostAccess, hostUpdate]

/-! ### What an operation can do to the state -/

/-- What one host operation can do to the state. -/
inductive Touches (s : State) : HostOp → State → Prop where
  | nothing (op : HostOp) : Touches s op s
  | step {t : State} (h : Machine.step s = .next t) : Touches s .step t
  | register (name : String) (v : Int) (r : RegName) (w : Word) : Touches s (.setRegister name v) (s.setReg r w)
  | byte {a : Nat} (in_range : a + 1 ≤ s.cfg.memLen) (v : Byte) : Touches s (.write8 a v) (s.setMem (memSet s.mem a v))
  | word {a : Nat} (in_range : a + 2 ≤ s.cfg.memLen) (v : Word) :
    Touches s (.write16 a v) (s.setMem (memSet16 s.mem a v))

theorem perform_step_of_running (h : step s = .next t) (ht : t.status = .running) : perform .step s = (t, .ok) :=
  hostStep_of_running h ht

theorem perform_step_of_fault {f : Fault} (h : step s = .next t) (ht : t.status = .faulted f) :
    perform .step s = (t, .fault f) := hostStep_of_fault h ht

theorem perform_step_of_faulted {f : Fault} (h : s.status = .faulted f) :
    perform .step s = (s, .refused (.instanceFaulted f)) := ((stepRunsOnlyARunningInstance s).2 f h).2

theorem perform_touches (op : HostOp) (s : State) : Touches s op (perform op s).1 := by
  cases op with
  | step =>
    cases hst : s.status with
    | faulted f => exact perform_step_of_faulted hst ▸ .nothing _
    | running =>
      obtain ⟨t, ht⟩ := exists_step hst
      cases hst' : t.status with
      | running => exact perform_step_of_running ht hst' ▸ .step ht
      | faulted f => exact perform_step_of_fault ht hst' ▸ .step ht
  | getRegister | read8 | read16 | dump => exact (hostQuery_fst _ _ _).symm ▸ .nothing _
  | registers => exact .nothing _
  | setRegister name v =>
    by_cases listed : ∃ r, (name, r) ∈ namedRegisters
    · obtain ⟨r, hr⟩ := listed
      obtain rfl := mem_namedRegisters.1 hr
      simp only [perform, setRegister_registerName, hostUpdate]
      exact .register _ v r _
    · simp only [perform, setRegister_of_unlisted fun r hr => listed ⟨r, hr⟩, hostUpdate]
      exact .nothing _
  | write8 a v =>
    by_cases in_range : a + 1 ≤ s.cfg.memLen
    · simp only [perform, hostWrite8, memWrite8_ok.2 ⟨in_range, rfl⟩, hostAccess, hostUpdate]
      exact .byte in_range v
    · simp only [perform, hostWrite8, memWrite8_error.2 ⟨Nat.lt_of_not_le in_range, rfl⟩, hostAccess, hostUpdate]
      exact .nothing _
  | write16 a v =>
    by_cases in_range : a + 2 ≤ s.cfg.memLen
    · simp only [perform, hostWrite16, memWrite16_ok.2 ⟨in_range, rfl⟩, hostAccess, hostUpdate]
      exact .word in_range v
    · simp only [perform, hostWrite16, memWrite16_error.2 ⟨Nat.lt_of_not_le in_range, rfl⟩, hostAccess, hostUpdate]
      exact .nothing _

/-- Settles O48: of what an operation can do, only a step can reach the status, and a query does nothing. -/
theorem onlyAStepChangesTheStatus : Obligations.OnlyAStepChangesTheStatus := by
  refine fun op s => ⟨fun hop => ?_, ?_⟩
  · generalize ht : (perform op s).1 = t
    cases ht ▸ perform_touches op s with
    | step => exact absurd rfl hop
    | nothing | register | byte | word => rfl
  · rintro (⟨_, rfl⟩ | ⟨_, rfl⟩ | ⟨_, rfl⟩ | ⟨_, _, rfl⟩ | rfl)
    · exact hostQuery_fst _ _ _
    · exact hostQuery_fst _ _ _
    · exact hostQuery_fst _ _ _
    · exact hostQuery_fst _ _ _
    · rfl

/-! ### What every run keeps -/

/-- What every operation keeps, every run keeps. -/
theorem performAll_keeps {P : State → Prop} (keeps : ∀ op s, P s → P (perform op s).1) (ops : List HostOp) (h : P s) :
    P (performAll ops s).1 := by
  induction ops generalizing s with
  | nil => exact h
  | cons op ops ih => exact ih (keeps op s h)

theorem perform_wf (op : HostOp) (s : State) (h : s.wf) : (perform op s).1.wf := by
  obtain ⟨hcfg, hmem, inside⟩ := h
  generalize ht : (perform op s).1 = t
  cases ht ▸ perform_touches op s with
  | nothing => exact ⟨hcfg, hmem, inside⟩
  | step hstep => exact stepKeepsTheStateWellFormed s t ⟨hcfg, hmem, inside⟩ hstep
  | register => exact ⟨hcfg, hmem, inside⟩
  | byte in_range v => exact ⟨hcfg, memSet_wf _ v hmem, memSet_within v inside in_range⟩
  | word in_range v => exact ⟨hcfg, memSet16_wf _ v hmem, memSet16_within v inside in_range⟩

/-- Settles O45: every operation keeps the invariant, a step by O43. -/
theorem everyRunKeepsTheStateWellFormed : Obligations.EveryRunKeepsTheStateWellFormed := fun ops _ h =>
  performAll_keeps perform_wf ops h

theorem step_cfg (h : step s = .next t) : t.cfg = s.cfg := by
  rcases step_next_cases (running_of_step h) h with ⟨ok, _⟩ | ⟨e, _, rfl⟩
  · rcases stepEffect_ok ok with ⟨_, _, _, _, rfl⟩ | ⟨i, _, _, hi⟩
    · rfl
    · exact (Effects.effect_effected hi).cfg
  · rfl

theorem perform_cfg (op : HostOp) (s : State) : (perform op s).1.cfg = s.cfg := by
  generalize ht : (perform op s).1 = t
  cases ht ▸ perform_touches op s with
  | step hstep => exact step_cfg hstep
  | nothing | register | byte | word => rfl

/-- Settles O46: every operation keeps the configuration. -/
theorem configurationNeverChanges : Obligations.ConfigurationNeverChanges := by
  intro ops s
  have keeps (op : HostOp) (t : State) (h : t.cfg = s.cfg) : (perform op t).1.cfg = s.cfg :=
    (perform_cfg op t).trans h
  exact performAll_keeps keeps ops rfl

theorem perform_of_faulted {f : Fault} (op : HostOp) (s : State) (h : s.status = .faulted f) :
    (perform op s).1.status = .faulted f := by
  by_cases hop : op = .step
  · rw [hop, perform_step_of_faulted h]
    exact h
  · exact ((onlyAStepChangesTheStatus op s).1 hop).trans h

/-- Settles O47: a step is refused, and no other operation changes the status. -/
theorem faultedInstanceStaysFaulted : Obligations.FaultedInstanceStaysFaulted := fun ops _ _ h =>
  performAll_keeps perform_of_faulted ops h

/-- Settles O44: construction takes its configuration and its memory as they are. -/
theorem resetStateIsWellFormed : Obligations.ResetStateIsWellFormed := by
  have constructed (c : Config) (m : Memory) (hc : c.wf) (hm : Memory.wf m) (inside : Memory.within c.memLen m) :
      (State.construct c m).wf := ⟨hc, hm, inside⟩
  exact ⟨constructed _ _ (by decide) (by decide) (by decide), constructed⟩

/-- Settles O56: each clause is what `perform` makes of the answer it is given. -/
theorem hostOperationsHappenInOrder : Obligations.HostOperationsHappenInOrder := by
  refine ⟨fun _ _ => perform_step_of_running, fun _ _ _ => perform_step_of_fault, fun _ _ => perform_step_of_faulted,
    fun s name w h => ?_, fun s name e h => ?_, fun s t name v h => ?_, fun _ => rfl,
    fun op ops s t u p ps hop hops => ?_⟩
  · simp only [perform, h, hostQuery]
  · simp only [perform, h, hostQuery]
  · simp only [perform, h, hostUpdate]
  · simp only [performAll, hop, hops]

end

end Sys2Proof.Proofs.HostPort
end

section
/-! The stop policy (70_reset_and_hazards.md R222): a run under it ends in the first state at which it stops, if that is
reached in time. -/

namespace Sys2Proof.Proofs.StopPolicy
open Sys2Proof Sys2Proof.Machine Sys2Proof.Proofs.Steps

/-- At most `n` steps from `s` reach `t`, none of the states before it being a normal end. -/
def Reaches (e : Word) (n : Nat) (s t : State) : Prop :=
  ∃ k, k ≤ n ∧ core.run k s = .next t ∧ NotEndedBefore e k s

section
variable {e : Word} {n : Nat} {s t u : State}

theorem reaches_self (e : Word) (n : Nat) (s : State) : Reaches e n s s := ⟨0, n.zero_le, rfl, notEndedBefore_zero e s⟩

/-- From a `Faulted` state nothing else is reached. -/
theorem reaches_of_faulted {f : Fault} (h : s.status = .faulted f) : Reaches e n s t ↔ t = s := by
  constructor
  · rintro ⟨k, _, hk, _⟩
    exact (run_of_faulted h hk).2
  · rintro rfl
    exact reaches_self e n t

/-- From a normal end nothing else is reached. -/
theorem reaches_of_ended (h : s.status = .running ∧ s.reg .ip = e) : Reaches e n s t ↔ t = s := by
  constructor
  · rintro ⟨k, _, hk, not_ended⟩
    cases k with
    | zero => cases hk; rfl
    | succ k => exact absurd h (not_ended 0 s (Nat.succ_pos k) rfl)
  · rintro rfl
    exact reaches_self e n t

theorem reaches_zero : Reaches e 0 s t ↔ t = s := by
  constructor
  · rintro ⟨k, hk, hrun, _⟩
    obtain rfl := Nat.le_zero.1 hk
    cases hrun
    rfl
  · rintro rfl
    exact reaches_self e 0 t

/-- A run that has not ended goes on from the state after its first step. -/
theorem reaches_succ (h : step s = .next u) (hs : ¬(s.status = .running ∧ s.reg .ip = e)) :
    Reaches e (n + 1) s t ↔ t = s ∨ Reaches e n u t := by
  constructor
  · rintro ⟨k, hk, hrun, not_ended⟩
    cases k with
    | zero => cases hrun; exact .inl rfl
    | succ k =>
      exact .inr ⟨k, Nat.le_of_succ_le_succ hk, run_next h ▸ hrun, ((notEndedBefore_succ h).1 not_ended).2⟩
  · rintro (rfl | ⟨k, hk, hrun, not_ended⟩)
    · exact reaches_self e (n + 1) t
    · exact ⟨k + 1, Nat.succ_le_succ hk, (run_next h).trans hrun, (notEndedBefore_succ h).2 ⟨hs, not_ended⟩⟩

/-- How a run under the stop policy ends, in terms of the states it reaches. -/
structure EndsAsPolicySays (e : Word) (n : Nat) (s : State) (r : RunEnd) : Prop where
  normal : ∀ t, r = .normal t ↔ t.status = .running ∧ t.reg .ip = e ∧ Reaches e n s t
  faulted : ∀ f t, r = .faulted f t ↔ t.status = .faulted f ∧ Reaches e n s t
  exhausted : ∀ t, r = .exhausted t ↔
    t.status = .running ∧ core.run n s = .next t ∧ NotEndedBefore e (n + 1) s
  transition : ∀ t, r ≠ .noTransition t

theorem runTo_of_faulted {f : Fault} (h : s.status = .faulted f) : runTo e n s = .faulted f s := by
  unfold runTo
  simp only [h]

theorem runTo_of_ended (h : s.status = .running) (he : s.reg .ip = e) : runTo e n s = .normal s := by
  unfold runTo
  simp only [h, if_pos he]

theorem runTo_zero (h : s.status = .running) (he : s.reg .ip ≠ e) : runTo e 0 s = .exhausted s := by
  unfold runTo
  simp only [h, if_neg he]

theorem runTo_succ (h : step s = .next u) (he : s.reg .ip ≠ e) : runTo e (n + 1) s = runTo e n u := by
  rw [runTo]
  simp only [running_of_step h, if_neg he, h]

theorem ends_of_faulted {f : Fault} (h : s.status = .faulted f) : EndsAsPolicySays e n s (.faulted f s) where
  normal t := by
    rw [reaches_of_faulted h]
    refine iff_of_false (fun h => nomatch h) ?_
    rintro ⟨running, _, rfl⟩
    cases h.symm.trans running
  faulted g t := by
    rw [reaches_of_faulted h]
    constructor
    · rintro ⟨⟩; exact ⟨h, rfl⟩
    · rintro ⟨hg, rfl⟩; cases h.symm.trans hg; rfl
  exhausted t := by
    refine iff_of_false (fun h => nomatch h) ?_
    rintro ⟨running, hrun, _⟩
    obtain ⟨_, rfl⟩ := run_of_faulted h hrun
    cases h.symm.trans running
  transition t := fun h => nomatch h

theorem ends_of_ended (h : s.status = .running) (he : s.reg .ip = e) : EndsAsPolicySays e n s (.normal s) where
  normal t := by
    rw [reaches_of_ended ⟨h, he⟩]
    constructor
    · rintro ⟨⟩; exact ⟨h, he, rfl⟩
    · rintro ⟨_, _, rfl⟩; rfl
  faulted f t := by
    rw [reaches_of_ended ⟨h, he⟩]
    refine iff_of_false (fun h => nomatch h) ?_
    rintro ⟨hf, rfl⟩
    cases h.symm.trans hf
  exhausted t :=
    iff_of_false (fun h => nomatch h) fun ⟨_, _, not_ended⟩ => not_ended 0 s n.succ_pos rfl ⟨h, he⟩
  transition t := fun h => nomatch h

theorem ends_zero (h : s.status = .running) (he : s.reg .ip ≠ e) : EndsAsPolicySays e 0 s (.exhausted s) where
  normal t := by
    rw [reaches_zero]
    refine iff_of_false (fun h => nomatch h) ?_
    rintro ⟨_, he', rfl⟩
    exact he he'
  faulted f t := by
    rw [reaches_zero]
    refine iff_of_false (fun h => nomatch h) ?_
    rintro ⟨hf, rfl⟩
    cases h.symm.trans hf
  exhausted t := by
    obtain ⟨u, hu⟩ := exists_step h
    have not_ended : NotEndedBefore e 1 s :=
      (notEndedBefore_succ hu).2 ⟨fun ⟨_, he'⟩ => he he', notEndedBefore_zero e u⟩
    constructor
    · rintro ⟨⟩; exact ⟨h, rfl, not_ended⟩
    · rintro ⟨_, hrun, _⟩; cases hrun; rfl
  transition t := fun h => nomatch h

theorem ends_succ {r : RunEnd} (hu : step s = .next u) (he : s.reg .ip ≠ e) (ends : EndsAsPolicySays e n u r) :
    EndsAsPolicySays e (n + 1) s r := by
  have not_here : ¬(s.status = .running ∧ s.reg .ip = e) := fun ⟨_, he'⟩ => he he'
  have running := running_of_step hu
  obtain ⟨normal, faulted, exhausted, transition⟩ := ends
  refine ⟨fun t => ?_, fun f t => ?_, fun t => ?_, transition⟩
  · rw [normal, reaches_succ hu not_here]
    refine and_congr_right fun _ => and_congr_right fun he' => (or_iff_right ?_).symm
    rintro rfl
    exact he he'
  · rw [faulted, reaches_succ hu not_here]
    refine and_congr_right fun hf => (or_iff_right ?_).symm
    rintro rfl
    cases running.symm.trans hf
  · rw [exhausted, run_next hu, notEndedBefore_succ hu, and_iff_right not_here]

theorem runTo_ends (e : Word) (n : Nat) (s : State) : EndsAsPolicySays e n s (runTo e n s) := by
  induction n generalizing s with
  | zero =>
    cases hst : s.status with
    | faulted f => exact runTo_of_faulted hst ▸ ends_of_faulted hst
    | running =>
      by_cases he : s.reg .ip = e
      · exact runTo_of_ended hst he ▸ ends_of_ended hst he
      · exact runTo_zero hst he ▸ ends_zero hst he
  | succ n ih =>
    cases hst : s.status with
    | faulted f => exact runTo_of_faulted hst ▸ ends_of_faulted hst
    | running =>
      by_cases he : s.reg .ip = e
      · exact runTo_of_ended hst he ▸ ends_of_ended hst he
      · obtain ⟨u, hu⟩ := exists_step hst
        exact runTo_succ hu he ▸ ends_succ hu he (ih u)

end

/-- Settles O54: the four ends, as `runTo_ends` gives them. -/
theorem stopPolicyEndsTheRun : Obligations.StopPolicyEndsTheRun := by
  intro e n s
  obtain ⟨normal, faulted, exhausted, transition⟩ := runTo_ends e n s
  exact ⟨normal, faulted, exhausted, transition⟩

end Sys2Proof.Proofs.StopPolicy
end
